-- ==== Sys2Proof/Word.lean ====
section
/-! DEFINITION. The two kinds of value OSC-CORE computes with: 32-bit words and the numbers of `NUM`. -/

namespace Sys2Proof

/-- A 32-bit word. The spec's `i32` (00_scope section 6) is its signed reading `BitVec.toInt`, `u32` its unsigned
reading `BitVec.toNat`; `a +32 b` (R77) is `BitVec` addition. -/
abbrev Word := BitVec 32

/-- The carrier of `NUM` (R8), the type the spec writes `Real`, as plain data: a rational number stands for itself, every
further real number has a name. Which real a name stands for, and every operation, is the configuration record's
(`NumSystem`). DESIGN CHOICE, safe: log 1. -/
inductive NumVal where
  /-- A rational number. -/
  | rat (q : Rat)
  /-- A real number under the name `NUM` gives it. -/
  | named (name : Nat)
  deriving DecidableEq, Repr, Inhabited

end Sys2Proof
end

