-- ==== Sys2Proof/Syntax.lean ====
section
/-! DEFINITION. The command set of OSC-CORE: one constructor per row of spec/opcode_table.json. -/

namespace Sys2Proof

/-- The four calculation variants (R21, R58). The first letter is the frequency input's rate class, the second the
phase-offset input's: `a` per-sample, `k` per-block. -/
inductive Variant where
  | aa
  | ak
  | ka
  | kk
  deriving DecidableEq, Repr, Inhabited

/-- The six commands (R53), with the fields their words carry (R55 to R60). -/
inductive Instr where
  /-- CONSTRUCT (R69): the variant to bind and the base-2 logarithm of the table length. -/
  | construct (var : Variant) (ls : BitVec 5)
  /-- GEN.AA (R95), with the block length. -/
  | genAA (n : BitVec 26)
  /-- GEN.AK (R96), with the block length. -/
  | genAK (n : BitVec 26)
  /-- GEN.KA (R97), with the block length. -/
  | genKA (n : BitVec 26)
  /-- GEN.KK (R98), with the block length. -/
  | genKK (n : BitVec 26)
  /-- RELEASE (R74). -/
  | release
  deriving DecidableEq, Repr

end Sys2Proof
end

