-- ==== Sys2Proof/Config.lean ====
section
/-! DEFINITION. What one build of the hardware fixes (`NUM` and the open parameters `F` and `U`) and the free values: opaque
constants that nothing in Lean can evaluate. -/

namespace Sys2Proof

/-- `NUM` (R8): the operations over the carrier `NumVal`, the real number each value is, and the laws that make every
operation and comparison the exact one of the real numbers. A rounding `NUM` is a departure from the spec (R8) and is no
`NumSystem`. Several names may stand for one number: log 1. -/
structure NumSystem where
  /-- The real number a value is. The machine never evaluates it: its rules are stated in it. -/
  val : NumVal → ℝ
  /-- Conversion from integers, `real(n)`. -/
  ofInt : Int → NumVal
  /-- `+`. -/
  add : NumVal → NumVal → NumVal
  /-- `-`. -/
  sub : NumVal → NumVal → NumVal
  /-- `×`. -/
  mul : NumVal → NumVal → NumVal
  /-- `/`. -/
  div : NumVal → NumVal → NumVal
  /-- Comparison with zero: `x > 0`. -/
  pos : NumVal → Bool
  /-- Comparison with zero: `x < 0`. -/
  neg : NumVal → Bool
  /-- Equality of numbers. -/
  eq : NumVal → NumVal → Bool
  /-- The integer part toward zero (R76). -/
  trunc : NumVal → Int
  val_rat : ∀ q, val (.rat q) = q
  val_ofInt : ∀ n, val (ofInt n) = n
  val_add : ∀ x y, val (add x y) = val x + val y
  val_sub : ∀ x y, val (sub x y) = val x - val y
  val_mul : ∀ x y, val (mul x y) = val x * val y
  /-- No rule divides by zero. -/
  val_div : ∀ x y, val y ≠ 0 → val (div x y) = val x / val y
  pos_iff : ∀ x, pos x = true ↔ 0 < val x
  neg_iff : ∀ x, neg x = true ↔ val x < 0
  eq_iff : ∀ x y, eq x y = true ↔ val x = val y
  trunc_of_nonneg : ∀ x, 0 ≤ val x → trunc x = ⌊val x⌋
  trunc_of_nonpos : ∀ x, val x ≤ 0 → trunc x = ⌈val x⌉

/-- The rational number a value is in the reference instance, where a name stands for no further number. -/
def NumVal.toRat : NumVal → Rat
  | .rat q => q
  | .named _ => 0

/-- The reference instance R8 names: the exact rationals. -/
def NumSystem.rationals : NumSystem where
  val x := x.toRat
  ofInt n := .rat n
  add x y := .rat (x.toRat + y.toRat)
  sub x y := .rat (x.toRat - y.toRat)
  mul x y := .rat (x.toRat * y.toRat)
  div x y := .rat (x.toRat / y.toRat)
  pos x := decide (0 < x.toRat)
  neg x := decide (x.toRat < 0)
  eq x y := x.toRat == y.toRat
  trunc x := if 0 ≤ x.toRat then ⌊x.toRat⌋ else ⌈x.toRat⌉
  val_rat q := rfl
  val_ofInt n := by simp [NumVal.toRat]
  val_add x y := by simp [NumVal.toRat]
  val_sub x y := by simp [NumVal.toRat]
  val_mul x y := by simp [NumVal.toRat]
  val_div x y h := by simp [NumVal.toRat]
  pos_iff x := by simp
  neg_iff x := by simp
  eq_iff x y := by simp
  trunc_of_nonneg x h := by simp_all
  trunc_of_nonpos x h := by
    have h : x.toRat ≤ 0 := by exact_mod_cast h
    split_ifs with g
    · rw [le_antisymm h g]; simp
    · simp

theorem NumSystem.val_one_pos (N : NumSystem) : 0 < N.val (.rat 1) := by rw [N.val_rat]; norm_num

/-- The hardware parameters that no command carries. The values given here only show that there is a configuration; the
machine's own is `Config.hw`. -/
structure Config where
  /-- `F`, the number of fraction bits of a phase word, 0 to 32 (R5). -/
  fracBits : Fin 33
  /-- `NUM`, the number system (R8). -/
  num : NumSystem := NumSystem.rationals
  /-- `U`, the phase-offset units of one cycle (R6). -/
  U : NumVal := .rat 1
  /-- `U` is a positive real (R6): any, 2π among them (`Laws.config_exists`). -/
  U_pos : 0 < num.val U := by exact NumSystem.val_one_pos _
  deriving Inhabited

/-- `F` (R5) as a natural. -/
def Config.F (c : Config) : Nat := c.fracBits.val

/-- `real(n)` of a natural number (00_scope section 6). -/
def Config.real (c : Config) (n : Nat) : NumVal := c.num.ofInt n

/-- The parameters of the machine `exec` and `step` describe: open (R5, R6, R8, D1, D2, D3), so no value is given. -/
opaque Config.hw : Config

/-! Registers that hold no value (R31, R33, U14): the value each reads as is free. The argument counts the times the
instance has come to hold no value (power-on, then every RELEASE), so that two such times share nothing. -/

opaque Config.unsetPhase : Nat → Word
opaque Config.unsetPrevOut : Nat → NumVal
opaque Config.unsetPrevFreq : Nat → NumVal
opaque Config.unsetPrevPhase : Nat → NumVal
opaque Config.unsetCpsToInc : Nat → NumVal
opaque Config.unsetRadToInc : Nat → NumVal
opaque Config.unsetLoMask : Nat → Word
opaque Config.unsetVariant : Nat → Variant
opaque Config.unsetLs : Nat → BitVec 5

end Sys2Proof
end

