-- ==== Sys2Proof/WellFormed.lean ====
section
/-! DEFINITION. Which terms of `Instr` stand for a command word that is not reserved. -/

namespace Sys2Proof

/-- A GEN word with `N = 0` is reserved (R62); every other term has a word. -/
def Instr.wellFormed : Instr → Bool
  | .construct _ _ => true
  | .genAA n => n != 0
  | .genAK n => n != 0
  | .genKA n => n != 0
  | .genKK n => n != 0
  | .release => true

end Sys2Proof
end

