-- ==== Sys2Proof/Decode.lean ====
section
/-! DEFINITION. The decoder of command words (R67), total on 32-bit words and refusing by name, then the encoder and the
assembler spelling (R68). -/

namespace Sys2Proof

/-- Bit 1 of the variant code: the frequency input is per-block (R21, R58). -/
def Variant.fk : Variant → Bool
  | .aa => false
  | .ak => false
  | .ka => true
  | .kk => true

/-- Bit 0 of the variant code: the phase-offset input is per-block (R21, R58). -/
def Variant.pk : Variant → Bool
  | .aa => false
  | .ak => true
  | .ka => false
  | .kk => true

/-- The 2-bit code of a variant (R58). -/
def Variant.code (v : Variant) : BitVec 2 := BitVec.ofBool v.fk ++ BitVec.ofBool v.pk

/-- The variant a 2-bit code names (R58): all four codes are legal. -/
def Variant.ofCode (b : BitVec 2) : Variant :=
  match b.getLsbD 1, b.getLsbD 0 with
  | false, false => .aa
  | false, true => .ak
  | true, false => .ka
  | true, true => .kk

/-- Why a word is Reserved. The spec has the one name `Reserved`; the three reasons are its rules R62, R63 and R64. -/
inductive ReservedWord where
  /-- A GEN word with `N = 0` (R62). -/
  | emptyBlock
  /-- OPC is `0000` or `0100` to `1111` (R63). -/
  | opcode
  /-- A must-be-zero bit of a CONSTRUCT or RELEASE word is set (R64). -/
  | zeroField
  deriving DecidableEq, Repr

/-- Field OPC, bits 31..28 of every word (R54). -/
def Word.opc (w : Word) : BitVec 4 := w.extractLsb' 28 4

/-- Field VAR, bits 27..26 (R58). -/
def Word.var (w : Word) : BitVec 2 := w.extractLsb' 26 2

/-- Field LS of a CONSTRUCT word, bits 25..21 (R59). -/
def Word.ls (w : Word) : BitVec 5 := w.extractLsb' 21 5

/-- Field N of a GEN word, bits 25..0 (R60). -/
def Word.n (w : Word) : BitVec 26 := w.extractLsb' 0 26

/-- The GEN command of a variant (R67): field VAR selects the mnemonic. -/
def Instr.gen (v : Variant) (n : BitVec 26) : Instr :=
  match v with
  | .aa => .genAA n
  | .ak => .genAK n
  | .ka => .genKA n
  | .kk => .genKK n

/-- The decoder of R67. Every word is one of the six commands or Reserved (R65), in every state (R66). -/
def decode (w : Word) : Except ReservedWord Instr :=
  if Word.opc w = 1#4 then
    if w.extractLsb' 0 21 = 0#21 then .ok (.construct (Variant.ofCode (Word.var w)) (Word.ls w))
    else .error .zeroField
  else if Word.opc w = 2#4 then
    if Word.n w = 0#26 then .error .emptyBlock
    else .ok (Instr.gen (Variant.ofCode (Word.var w)) (Word.n w))
  else if Word.opc w = 3#4 then
    if w.extractLsb' 0 28 = 0#28 then .ok .release
    else .error .zeroField
  else .error .opcode

/-- The word of a command, written from the formats C, G and R (R55 to R57). -/
def encode : Instr → Word
  | .construct v l => ((1#4 ++ Variant.code v) ++ l) ++ 0#21
  | .genAA n => (2#4 ++ 0#2) ++ n
  | .genAK n => (2#4 ++ 1#2) ++ n
  | .genKA n => (2#4 ++ 2#2) ++ n
  | .genKK n => (2#4 ++ 3#2) ++ n
  | .release => 3#4 ++ 0#28

/-- The mask of the table row of a command (R67): the bits that select it. -/
def Instr.rowMask : Instr → Word
  | .construct _ _ => 0xF01FFFFF#32
  | .genAA _ => 0xFC000000#32
  | .genAK _ => 0xFC000000#32
  | .genKA _ => 0xFC000000#32
  | .genKK _ => 0xFC000000#32
  | .release => 0xFFFFFFFF#32

/-- The value of the selecting bits in the table row of a command (R67). -/
def Instr.rowValue : Instr → Word
  | .construct _ _ => 0x10000000#32
  | .genAA _ => 0x20000000#32
  | .genAK _ => 0x24000000#32
  | .genKA _ => 0x28000000#32
  | .genKK _ => 0x2C000000#32
  | .release => 0x30000000#32

/-- The command word of a table row's bits. A command is one 32-bit word with no bytes and no further words (R41, R54,
R66), so the `nbits` low bits of `w` are the word and every bit above them is 0. -/
def tableWord (nbits w : Nat) : Word := BitVec.ofNat 32 (w % 2 ^ nbits)

/-- The instruction the decoder reads from a table row's bits. -/
def decodeTableWord (nbits w : Nat) : Option Instr :=
  match decode (tableWord nbits w) with
  | .ok i => some i
  | .error _ => none

/-- The name of a variant in assembler (R58, R68). -/
def Variant.asm : Variant → String
  | .aa => "AA"
  | .ak => "AK"
  | .ka => "KA"
  | .kk => "KK"

/-- The assembler line of a command, numbers in decimal (R68). -/
def Instr.asm : Instr → String
  | .construct v l => "CONSTRUCT " ++ v.asm ++ ", " ++ Nat.repr l.toNat
  | .genAA n => "GEN.AA " ++ Nat.repr n.toNat
  | .genAK n => "GEN.AK " ++ Nat.repr n.toNat
  | .genKA n => "GEN.KA " ++ Nat.repr n.toNat
  | .genKK n => "GEN.KK " ++ Nat.repr n.toNat
  | .release => "RELEASE"

end Sys2Proof
end

