-- ==== Sys2Proof/Machine/State.lean ====
section
/-! DEFINITION. The state of the machine as plain data: the eleven registers of R13, the six spaces of R34, the host's
pending acts; what can stop a command; power-on. -/

namespace Sys2Proof.Machine

/-- One space (R34): the elements the host has supplied, as (index, element) pairs with strictly rising indices
(`Memory.wf`). An unlisted index is an element the host has not supplied (R42): log 11. -/
abbrev Memory := List (Nat × NumVal)

/-- The six spaces (R34). -/
inductive Space where
  | tab
  | fin
  | pin
  | bin
  | cfg
  | out
  deriving DecidableEq, Repr

/-- What the host can do to the machine (R53, R111, R117), one act between commands: log 5. -/
inductive HostAct where
  /-- The host writes a word to the command port, the previous command having ended (R53). -/
  | command (w : Word)
  /-- The host writes a word to the command port before the previous command has ended (R124). -/
  | commandEarly (w : Word)
  /-- The host fills a space with these elements, at indices 0, 1, ... (R68, R111). For OUT this is the room it gives. -/
  | place (sp : Space) (xs : List NumVal)
  /-- The host writes one element (R68, R111). -/
  | poke (sp : Space) (k : Nat) (v : NumVal)
  deriving DecidableEq, Repr

/-- What TABREF can refer to: the one TAB space (R23). -/
inductive TabRef where
  | tab
  deriving DecidableEq, Repr

/-- The state. Registers first (R13), then the spaces (R34), then the model's own fields. -/
structure State where
  /-- PHASE, the phase accumulator (R14). -/
  phase : Word
  /-- PREVOUT, the feedback path register (R15). -/
  prevOut : NumVal
  /-- PREVFREQ, the latched frequency scalar (R16). -/
  prevFreq : NumVal
  /-- PREVPHASE, the latched phase-offset scalar (R17). -/
  prevPhase : NumVal
  /-- CPSTOINC (R18). -/
  cpsToInc : NumVal
  /-- RADTOINC (R19). -/
  radToInc : NumVal
  /-- LOMASK (R20). -/
  loMask : Word
  /-- VARIANT, the bound generation routine (R21). -/
  variant : Variant
  /-- LS, the base-2 logarithm of the table length (R22). -/
  ls : BitVec 5
  /-- TABREF, the reference to the wavetable (R23). -/
  tabRef : TabRef
  /-- VALID, the instance exists (R24). -/
  valid : Bool
  /-- TAB, the wavetable (R35). -/
  tab : Memory
  /-- FIN, the frequency input (R36). -/
  fin : Memory
  /-- PIN, the phase-offset input (R37). -/
  pin : Memory
  /-- BIN, the feedback coefficient (R38). -/
  bin : Memory
  /-- CFG, the construction constants (R39). -/
  cfg : Memory
  /-- OUT, the output samples (R40). -/
  out : Memory
  /-- Model's own: the host's acts still to come, oldest first (log 5). -/
  host : List HostAct
  /-- Model's own: the host has written TAB while VALID was 1 (R51, R107; log 6). -/
  tabMutated : Bool
  /-- Model's own: how many times RELEASE has left the registers without a value (R33; log 4). -/
  unsetDraws : Nat
  deriving DecidableEq, Repr

/-- OSC-CORE has no fault of any kind (R11, R104): there is no constructor, so no step can end in one. Safe: log 21. -/
inductive Fault where
  deriving DecidableEq, Repr

/-- Why a command has no meaning: the closed list of R107. A refusal leaves no state (R11, R109). All are safe: the
hardware detects nothing and goes on, the model stops. -/
inductive Refusal where
  /-- Rejected by name in `exec`: no meaning yet. Raised by no arm of this model. Safe. -/
  | notModelled (mnemonic : String)
  /-- The word decodes to no command (R62 to R64). Raised by the command port, and by a GEN of 0 samples. Safe. -/
  | reserved (why : ReservedWord)
  /-- `ls + F > 32` (R10). Raised by CONSTRUCT. Safe. -/
  | badTableSize
  /-- VALID is 0 (R24). Raised by the GEN commands and RELEASE. Safe. -/
  | notConstructed
  /-- The word's VAR is not VARIANT (R94, R126). Raised by the GEN commands. Safe. -/
  | shapeMismatch
  /-- The host supplied fewer elements than the command reads or writes (R42). Raised by CONSTRUCT and the GEN commands.
  Safe. -/
  | shortBuffer
  /-- The host wrote TAB while the instance was valid (R51, R125). Raised by every later command. Safe. -/
  | tableMutated
  /-- The host issued a command before the previous one ended (R124). Raised by the command port. Safe. -/
  | concurrent
  /-- A non-finite value was read (D31). Raised by nothing: the exact `NUM` has none (R107; log 8). Safe. -/
  | nonFinite
  /-- `CFG[0] <= 0` (R7). Raised by CONSTRUCT. Safe. -/
  | badPeriod
  deriving DecidableEq, Repr

/-- Power-on (R31, R118): VALID is 0, the other registers hold no value (they read as free values: DESIGN CHOICE,
unsafe, log 3), the spaces have no reset value (R120: nothing supplied) and no host act is pending (log 5). -/
def State.reset : State where
  phase := Config.unsetPhase 0
  prevOut := Config.unsetPrevOut 0
  prevFreq := Config.unsetPrevFreq 0
  prevPhase := Config.unsetPrevPhase 0
  cpsToInc := Config.unsetCpsToInc 0
  radToInc := Config.unsetRadToInc 0
  loMask := Config.unsetLoMask 0
  variant := Config.unsetVariant 0
  ls := Config.unsetLs 0
  tabRef := .tab
  valid := false
  tab := []
  fin := []
  pin := []
  bin := []
  cfg := []
  out := []
  host := []
  tabMutated := false
  unsetDraws := 0

end Sys2Proof.Machine
end

