-- ==== Sys2Proof/Machine/Flags.lean ====
section
/-! DEFINITION. OSC-CORE has no flags (R26): no operation records one and nothing is stored. What stands here are the two
comparisons R26 names, evaluated where they are used: the select inputs of the feedback formula and of the slope. -/

namespace Sys2Proof.Machine

/-- The three cases of the sign of a feedback coefficient (R78). -/
inductive CoefSign where
  | positive
  | negative
  | zero
  deriving DecidableEq, Repr

/-- The sign of the feedback coefficient, the fifth selection of R91: a comparison of `NUM` with zero (R8). -/
def coefSign (c : Config) (k : NumVal) : CoefSign :=
  if c.num.pos k then .positive else if c.num.neg k then .negative else .zero

/-- The select input of the slope multiplexer (R89): exact equality of the new and the latched scalar, the equality of `NUM`
(R8, R81, D12). -/
def scalarUnchanged (c : Config) (new prev : NumVal) : Bool := c.num.eq new prev

end Sys2Proof.Machine
end

