-- ==== Sys2Proof/Machine/Ops.lean ====
section
/-! DEFINITION. The named operations over the spaces and the registers, and the integer laws (R76, R77). Taking an
exception and returning from one have no operation: OSC-CORE has neither (R104, R109, R110). -/

namespace Sys2Proof.Machine

/-! ### The spaces -/

/-- The canonical form: indices strictly rising. Every listed element differs from an unlisted one, which has no value. -/
def Memory.wf (m : Memory) : Bool := decide (m.Pairwise fun a b => a.1 < b.1)

/-- Reading one element; `none` where the host has supplied none (R42). -/
def Memory.read : Memory → Nat → Option NumVal
  | [], _ => none
  | (a, v) :: m, k => if a = k then some v else Memory.read m k

/-- Writing one element, keeping the canonical form. -/
def Memory.write : Memory → Nat → NumVal → Memory
  | [], k, v => [(k, v)]
  | (a, w) :: m, k, v =>
    if k < a then (k, v) :: (a, w) :: m
    else if k = a then (k, v) :: m
    else (a, w) :: Memory.write m k v

/-- The elements `xs` at indices `k`, `k + 1`, ... -/
def Memory.fillFrom : Nat → List NumVal → Memory
  | _, [] => []
  | k, x :: xs => (k, x) :: Memory.fillFrom (k + 1) xs

/-- The elements `xs` at indices 0, 1, ... -/
def Memory.ofList (xs : List NumVal) : Memory := Memory.fillFrom 0 xs

/-- The host has supplied elements 0 to `n - 1` (R42). -/
def Memory.supplies (m : Memory) : Nat → Bool
  | 0 => true
  | n + 1 => (Memory.read m n).isSome && Memory.supplies m n

/-! ### Reading and writing the spaces (R34): TAB, FIN, PIN, BIN and CFG can only be read, OUT only be written -/

/-- `MemRead(TAB[k], 1)`, through TABREF (R23, R35). -/
def readTab (s : State) (k : Nat) : Option NumVal :=
  match s.tabRef with
  | .tab => Memory.read s.tab k

/-- `MemRead(FIN[k], 1)` (R36). -/
def readFin (s : State) (k : Nat) : Option NumVal := Memory.read s.fin k

/-- `MemRead(PIN[k], 1)` (R37). -/
def readPin (s : State) (k : Nat) : Option NumVal := Memory.read s.pin k

/-- `MemRead(BIN[k], 1)` (R38). -/
def readBin (s : State) (k : Nat) : Option NumVal := Memory.read s.bin k

/-- `MemRead(CFG[k], 1)` (R39). -/
def readCfg (s : State) (k : Nat) : Option NumVal := Memory.read s.cfg k

/-- OUT replaced. -/
def State.withOut (s : State) (m : Memory) : State := { s with out := m }

/-- `MemWrite(OUT[k], 1, v)` (R40): only into room the host has given (R42). -/
def writeOut (s : State) (k : Nat) (v : NumVal) : Option State :=
  if (Memory.read s.out k).isSome then some (s.withOut (Memory.write s.out k v)) else none

/-! ### Updates of the state -/

/-- Steps b and e of a sample: PHASE and PREVOUT written (R92). -/
def State.withSample (s : State) (p : Word) (y : NumVal) : State := { s with phase := p, prevOut := y }

/-- PREVFREQ latched (R90). -/
def State.latchFreq (s : State) (f : NumVal) : State := { s with prevFreq := f }

/-- PREVPHASE latched (R90). -/
def State.latchPhase (s : State) (p : NumVal) : State := { s with prevPhase := p }

/-- The instance is gone (R33): VALID is 0 and every other register holds no value, so each reads as a fresh free value
(log 4). TABREF has one value and keeps it (log 18). -/
def State.unset (s : State) : State :=
  { s with
    phase := Config.unsetPhase (s.unsetDraws + 1)
    prevOut := Config.unsetPrevOut (s.unsetDraws + 1)
    prevFreq := Config.unsetPrevFreq (s.unsetDraws + 1)
    prevPhase := Config.unsetPrevPhase (s.unsetDraws + 1)
    cpsToInc := Config.unsetCpsToInc (s.unsetDraws + 1)
    radToInc := Config.unsetRadToInc (s.unsetDraws + 1)
    loMask := Config.unsetLoMask (s.unsetDraws + 1)
    variant := Config.unsetVariant (s.unsetDraws + 1)
    ls := Config.unsetLs (s.unsetDraws + 1)
    valid := false
    unsetDraws := s.unsetDraws + 1 }

/-- The host acts still to come. -/
def State.withHost (s : State) (h : List HostAct) : State := { s with host := h }

/-- The contents of one space. -/
def State.space (s : State) : Space → Memory
  | .tab => s.tab
  | .fin => s.fin
  | .pin => s.pin
  | .bin => s.bin
  | .cfg => s.cfg
  | .out => s.out

/-- One space replaced by the host. -/
def State.withSpace (s : State) (sp : Space) (m : Memory) : State :=
  match sp with
  | .tab => { s with tab := m }
  | .fin => { s with fin := m }
  | .pin => { s with pin := m }
  | .bin => { s with bin := m }
  | .cfg => { s with cfg := m }
  | .out => { s with out := m }

/-- The host's write of a space: a write of TAB while VALID is 1 breaks the contract for good (R51, R125; log 6). -/
def State.hostWrites (s : State) (sp : Space) (m : Memory) : State :=
  { s.withSpace sp m with tabMutated := s.tabMutated || (s.valid && sp == .tab) }

/-! ### Integer laws -/

/-- `wrap32` (00_scope section 6): reduction modulo 2^32. -/
def wrap32 (n : Int) : Word := BitVec.ofInt 32 n

/-- `TRUNC32` (R76): the truncation of `NUM` (R8), reduced modulo 2^32. -/
def trunc32 (c : Config) (r : NumVal) : Word := wrap32 (c.num.trunc r)

/-- `+32` (R77): two's-complement addition modulo 2^32. -/
def add32 (a b : Word) : Word := a + b

end Sys2Proof.Machine
end

