-- ==== Sys2Proof/Machine/Operands.lean ====
section
/-! DEFINITION. The operand forms: the constants of construction, the rate classes of the two inputs and their
multiplexers, the ramp, the feedback term, the offset combiner, the bit split of a lookup position. -/

namespace Sys2Proof.Machine

/-! ### Constants of construction -/

/-- `SIZE = 2^LS` (R4). -/
def tableSize (ls : BitVec 5) : Nat := 2 ^ ls.toNat

/-- CPSTOINC (R70): `real(SIZE) × real(2^F) × T`. -/
def cpsToIncOf (c : Config) (ls : BitVec 5) (T : NumVal) : NumVal :=
  c.num.mul (c.num.mul (c.real (tableSize ls)) (c.real (2 ^ c.F))) T

/-- RADTOINC (R70): `real(SIZE) × real(2^F) / U`. -/
def radToIncOf (c : Config) (ls : BitVec 5) : NumVal :=
  c.num.div (c.num.mul (c.real (tableSize ls)) (c.real (2 ^ c.F))) c.U

/-- LOMASK (R20): `SIZE - 1`. -/
def loMaskOf (ls : BitVec 5) : Word := BitVec.ofNat 32 (tableSize ls - 1)

/-! ### The feedback term -/

/-- `FB` (R78). -/
def feedback (c : Config) (prev k : NumVal) : NumVal :=
  match coefSign c k with
  | .positive => c.num.mul prev k
  | .negative => c.num.mul (c.num.mul prev prev) k
  | .zero => c.real 0

/-! ### The two inputs -/

/-- `RAMP_SETUP` (R81): the running value and its slope. -/
def rampSetup (c : Config) (new prev K : NumVal) (N : Nat) : NumVal × NumVal :=
  if scalarUnchanged c new prev then (c.num.mul K new, c.real 0)
  else (c.num.mul K prev, c.num.div (c.num.mul K (c.num.sub new prev)) (c.real N))

/-- How one input is supplied in a block: one element per sample, or one scalar for the block, with the scalar just read,
the running value and its slope (R27). -/
inductive Source where
  | perSample
  | perBlock (new run slope : NumVal)
  deriving DecidableEq, Repr

/-- A per-block input at the start of a block (R81). -/
def Source.ofScalar (c : Config) (new prev K : NumVal) (N : Nat) : Source :=
  .perBlock new (rampSetup c new prev K N).1 (rampSetup c new prev K N).2

/-- The running value stepped after a sample (R82). -/
def Source.stepped (c : Config) : Source → Source
  | .perSample => .perSample
  | .perBlock new run slope => .perBlock new (c.num.add run slope) slope

/-- One multiplexer (R87, R88): an element scaled by the matching constant (R80), or the running value (R82). -/
def Source.select (c : Config) (src : Source) (K : NumVal) (element : Option NumVal) : Option NumVal :=
  match src with
  | .perSample => element.map fun x => c.num.mul K x
  | .perBlock _ run _ => some run

/-- The temporaries that live as long as a block (R27). -/
structure Block where
  /-- The feedback coefficient. -/
  k : NumVal
  /-- The frequency input. -/
  freq : Source
  /-- The phase-offset input. -/
  offs : Source
  deriving DecidableEq, Repr

/-- The running values stepped after a sample (R92, last two lines). -/
def Block.stepped (c : Config) (b : Block) : Block := { b with freq := b.freq.stepped c, offs := b.offs.stepped c }

/-- FMUX, the frequency increment of sample `i` before truncation (R87). -/
def fmux (c : Config) (b : Block) (s : State) (i : Nat) : Option NumVal := b.freq.select c s.cpsToInc (readFin s i)

/-- PMUX, the phase-offset parameter of sample `i` in accumulator units (R88). -/
def pmux (c : Config) (b : Block) (s : State) (i : Nat) : Option NumVal := b.offs.select c s.radToInc (readPin s i)

/-- The offset combiner (R83): one truncation, of the sum. -/
def phaseOffset (c : Config) (pinc radToInc fb : NumVal) : Word :=
  trunc32 c (c.num.add pinc (c.num.mul radToInc fb))

/-! ### The bit split of a lookup position (R84) -/

/-- `idx`: the position shifted right by `F`, masked. -/
def lookupIndex (c : Config) (loMask pos : Word) : Word := (pos >>> c.F) &&& loMask

/-- The second index, `(idx + 1) & LOMASK` (R85). -/
def lookupNext (c : Config) (loMask pos : Word) : Word := (lookupIndex c loMask pos + 1#32) &&& loMask

/-- `frac`: the low `F` bits as a fraction of one table step. -/
def lookupFrac (c : Config) (pos : Word) : NumVal :=
  c.num.div (c.real (pos &&& BitVec.ofNat 32 (2 ^ c.F - 1)).toNat) (c.real (2 ^ c.F))

/-! ### What a command needs of the host (R42, R94) -/

/-- How many elements an input of `n` samples has (R36, R37): one if per-block, `n` if per-sample. -/
def elementsOf (perBlock : Bool) (n : Nat) : Nat := if perBlock then 1 else n

/-- The buffers a GEN command of this shape and length reads and writes are all supplied (R94). -/
def genSupplied (v : Variant) (n : Nat) (s : State) : Bool :=
  Memory.supplies s.bin 1 && Memory.supplies s.fin (elementsOf v.fk n) &&
    Memory.supplies s.pin (elementsOf v.pk n) && Memory.supplies s.out n

/-- The elements CONSTRUCT needs beside CFG[0]: FIN[0], PIN[0], BIN[0] and a whole table (R69, Refusals). -/
def constructSupplied (ls : BitVec 5) (s : State) : Bool :=
  Memory.supplies s.fin 1 && Memory.supplies s.pin 1 && Memory.supplies s.bin 1 &&
    Memory.supplies s.tab (tableSize ls)

end Sys2Proof.Machine
end

