-- ==== Sys2Proof/Machine/Datapath.lean ====
section
/-! DEFINITION. The shared per-sample datapath (41_datapath) and the generation routine the four GEN commands and the
warm-up run (R94). `none` always means that an element was not supplied (R42). -/

namespace Sys2Proof.Machine

/-- The interpolation `t0 + frac × (t1 - t0)` (R85, D7). -/
def interpolate (c : Config) (t0 t1 frac : NumVal) : NumVal := c.num.add t0 (c.num.mul frac (c.num.sub t1 t0))

/-- `LOOKUP` (R85). -/
def lookup (c : Config) (s : State) (pos : Word) : Option NumVal :=
  (readTab s (lookupIndex c s.loMask pos).toNat).bind fun t0 =>
    (readTab s (lookupNext c s.loMask pos).toNat).map fun t1 => interpolate c t0 t1 (lookupFrac c pos)

/-- `SAMPLE(i)` (R92). `emit` is false in the warm-up only. -/
def sample (c : Config) (emit : Bool) (i : Nat) (b : Block) (s : State) : Option (Block × State) :=
  let fb := feedback c s.prevOut b.k
  (fmux c b s i).bind fun finc =>
    let phase := add32 s.phase (trunc32 c finc)
    (pmux c b s i).bind fun pinc =>
      let pos := add32 phase (phaseOffset c pinc s.radToInc fb)
      (lookup c s pos).bind fun y =>
        let t := s.withSample phase y
        (if emit then writeOut t i y else some t).map fun u => (b.stepped c, u)

/-- The loop of R94: `m` samples from sample `i` on, in ascending order. -/
def samples (c : Config) (emit : Bool) : Nat → Nat → Block → State → Option (Block × State)
  | 0, _, b, s => some (b, s)
  | m + 1, i, b, s => (sample c emit i b s).bind fun p => samples c emit m (i + 1) p.1 p.2

/-- One input at the start of a block (R94): its scalar read and ramped if it is per-block. -/
def sourceOf (c : Config) (perBlock : Bool) (scalar : Option NumVal) (prev K : NumVal) (n : Nat) : Option Source :=
  if perBlock then scalar.map fun new => Source.ofScalar c new prev K n else some .perSample

/-- The prologue of R94, in the order of R46. -/
def prologue (c : Config) (v : Variant) (n : Nat) (s : State) : Option Block :=
  (readBin s 0).bind fun k =>
    (sourceOf c v.fk (readFin s 0) s.prevFreq s.cpsToInc n).bind fun freq =>
      (sourceOf c v.pk (readPin s 0) s.prevPhase s.radToInc n).map fun offs => { k, freq, offs }

/-- The epilogue of R94: the latch enable (R90), with the new scalars, not the running values (R99). -/
def epilogue (b : Block) (s : State) : State :=
  let t := match b.freq with
    | .perSample => s
    | .perBlock fnew _ _ => s.latchFreq fnew
  match b.offs with
  | .perSample => t
  | .perBlock pnew _ _ => t.latchPhase pnew

/-- The generation routine of a variant over `n` samples (R94 after its admission checks; R91). -/
def routine (c : Config) (v : Variant) (emit : Bool) (n : Nat) (s : State) : Option State :=
  (prologue c v n s).bind fun b => (samples c emit n 0 b s).map fun p => epilogue p.1 p.2

end Sys2Proof.Machine
end

