-- ==== Sys2Proof/Machine/Construct.lean ====
section
/-! DEFINITION. CONSTRUCT and RELEASE (40_construct). -/

namespace Sys2Proof.Machine

/-- The registers CONSTRUCT sets before the warm-up (R69, R32 second column). -/
def State.constructed (c : Config) (var : Variant) (ls : BitVec 5) (T f0 p0 : NumVal) (s : State) : State :=
  { s with
    phase := 0#32
    prevOut := c.real 0
    prevFreq := f0
    prevPhase := p0
    cpsToInc := cpsToIncOf c ls T
    radToInc := radToIncOf c ls
    loMask := loMaskOf ls
    variant := var
    ls := ls
    tabRef := .tab
    valid := true }

/-- The warm-up (R71): the per-block/per-block routine over one sample, whatever variant is bound, OUT not written. -/
def warmup (c : Config) (s : State) : Option State := routine c .kk false 1 s

/-- CONSTRUCT (R69), refusals in the order of its pseudocode. Admitted whether VALID is 0 or 1 (R73). -/
def construct (c : Config) (var : Variant) (ls : BitVec 5) (s : State) : Host.Outcome State Fault Refusal :=
  if s.tabMutated then .refused .tableMutated
  else if 32 < ls.toNat + c.F then .refused .badTableSize
  else match readCfg s 0 with
    | none => .refused .shortBuffer
    | some T =>
      if !c.num.pos T then .refused .badPeriod
      else if constructSupplied ls s then
        match readFin s 0, readPin s 0 with
        | some f0, some p0 =>
          match warmup c (s.constructed c var ls T f0 p0) with
          | some t => .next t
          | none => .refused .shortBuffer
        | _, _ => .refused .shortBuffer
      else .refused .shortBuffer

/-- RELEASE (R74). -/
def releaseInstance (s : State) : Host.Outcome State Fault Refusal :=
  if s.tabMutated then .refused .tableMutated
  else if s.valid then .next s.unset
  else .refused .notConstructed

/-- CONSTRUCT (R69). -/
def execConstruct (var : Variant) (ls : BitVec 5) (s : State) : Host.Outcome State Fault Refusal :=
  construct Config.hw var ls s

/-- RELEASE (R74). -/
def execRelease (s : State) : Host.Outcome State Fault Refusal := releaseInstance s

end Sys2Proof.Machine
end

