-- ==== Sys2Proof/Machine/Generate.lean ====
section
/-! DEFINITION. The four generation commands (42_generate). -/

namespace Sys2Proof.Machine

/-- The shared shape of a GEN command (R94): the admission checks, then the routine VARIANT names (R91), which is the
word's own once `var = VARIANT` (R58). -/
def generate (c : Config) (var : Variant) (n : BitVec 26) (s : State) : Host.Outcome State Fault Refusal :=
  if n = 0#26 then .refused (.reserved .emptyBlock)
  else if s.tabMutated then .refused .tableMutated
  else if s.valid then
    if var = s.variant then
      if genSupplied var n.toNat s then
        match routine c s.variant true n.toNat s with
        | some t => .next t
        | none => .refused .shortBuffer
      else .refused .shortBuffer
    else .refused .shapeMismatch
  else .refused .notConstructed

/-- GEN.AA (R95). -/
def execGenAA (n : BitVec 26) (s : State) : Host.Outcome State Fault Refusal := generate Config.hw .aa n s

/-- GEN.AK (R96). -/
def execGenAK (n : BitVec 26) (s : State) : Host.Outcome State Fault Refusal := generate Config.hw .ak n s

/-- GEN.KA (R97). -/
def execGenKA (n : BitVec 26) (s : State) : Host.Outcome State Fault Refusal := generate Config.hw .ka n s

/-- GEN.KK (R98). -/
def execGenKK (n : BitVec 26) (s : State) : Host.Outcome State Fault Refusal := generate Config.hw .kk n s

end Sys2Proof.Machine
end

