-- ==== Sys2Proof/Machine/Dispatch.lean ====
section
/-! DEFINITION. One arm per command. -/

namespace Sys2Proof.Machine

def exec (i : Instr) (s : State) : Host.Outcome State Fault Refusal :=
  match i with
  | .construct var ls => Sys2Proof.Machine.execConstruct var ls s
  | .genAA n => Sys2Proof.Machine.execGenAA n s
  | .genAK n => Sys2Proof.Machine.execGenAK n s
  | .genKA n => Sys2Proof.Machine.execGenKA n s
  | .genKK n => Sys2Proof.Machine.execGenKK n s
  | .release => Sys2Proof.Machine.execRelease s

end Sys2Proof.Machine
end

