-- ==== Sys2Proof/Machine/Port.lean ====
section
/-! DEFINITION. The command port and the host's writes of the spaces (R53, R111, R117). -/

namespace Sys2Proof.Machine

/-- A word arrives on the command port (R53): decoded and executed, or Reserved (R63 to R65). -/
def receive (w : Word) (s : State) : Host.Outcome State Fault Refusal :=
  match decode w with
  | .ok i => exec i s
  | .error why => .refused (.reserved why)

/-- One act of the host. The core does nothing of its own while the host writes a space (R3). -/
def perform (a : HostAct) (s : State) : Host.Outcome State Fault Refusal :=
  match a with
  | .command w => receive w s
  | .commandEarly _ => .refused .concurrent
  | .place sp xs => .next (s.hostWrites sp (Memory.ofList xs))
  | .poke sp k v => .next (s.hostWrites sp (Memory.write (s.space sp) k v))

/-- A table row's word put first among the host's acts: the next command on the port. -/
def State.sendFirst (s : State) (w : Word) : State := s.withHost (.command w :: s.host)

end Sys2Proof.Machine
end

