-- ==== Sys2Proof/Machine/Step.lean ====
section
/-! DEFINITION. One step: the next act of the host, or nothing. -/

namespace Sys2Proof.Machine

/-- The oldest pending act of the host is performed. With none pending the core holds its registers and does nothing
(R116). A command is one step (R94, R131, D30). -/
def step (s : State) : Host.Outcome State Fault Refusal :=
  match s.host with
  | [] => .next s
  | a :: rest => perform a (s.withHost rest)

/-- `s` with this word as the next one on the command port. OSC-CORE has no program counter and no instruction memory
(R25): the host sends the program (log 5). -/
def State.withFetchWord (s : State) (nbits w : Nat) : State := s.sendFirst (tableWord nbits w)

end Sys2Proof.Machine
end

