-- ==== Sys2Proof/Safety.lean ====
section
/-! DEFINITION. The terms claims are stated in: when a command is admitted (R107), what every step keeps, what a block
computes sample by sample, which states the host cannot tell apart. -/

namespace Sys2Proof.Safety

open Sys2Proof.Machine

/-! ### Admission -/

/-- A GEN command of this shape and length meets every condition of R107. -/
def genAdmitted (var : Variant) (n : BitVec 26) (s : State) : Bool :=
  n != 0#26 && !s.tabMutated && s.valid && var == s.variant && genSupplied var n.toNat s

/-- A CONSTRUCT meets every condition of R107. -/
def constructAdmitted (c : Config) (ls : BitVec 5) (s : State) : Bool :=
  !s.tabMutated && decide (ls.toNat + c.F ≤ 32) && constructSupplied ls s &&
    match readCfg s 0 with
    | some T => c.num.pos T
    | none => false

/-- The command meets every condition of R107 in this state. -/
def admitted (c : Config) (i : Instr) (s : State) : Bool :=
  match i with
  | .construct _ ls => constructAdmitted c ls s
  | .genAA n => genAdmitted .aa n s
  | .genAK n => genAdmitted .ak n s
  | .genKA n => genAdmitted .ka n s
  | .genKK n => genAdmitted .kk n s
  | .release => !s.tabMutated && s.valid

/-! ### The invariant of the machine -/

/-- The mask is the table's and the whole table is there: what a lookup needs (R20, R35, R86). -/
def tableFits (s : State) : Bool :=
  s.loMask == loMaskOf s.ls && Memory.supplies s.tab (tableSize s.ls)

/-- Every table entry the instance can read lies between `lo` and `hi`. -/
def TableWithin (c : Config) (s : State) (lo hi : ℝ) : Prop :=
  ∀ k x, k < tableSize s.ls → Memory.read s.tab k = some x → lo ≤ c.num.val x ∧ c.num.val x ≤ hi

/-- What holds at power-on and every step keeps. -/
structure Inv (c : Config) (s : State) : Prop where
  /-- The spaces keep their canonical form. -/
  canonical : ∀ sp, Memory.wf (s.space sp) = true
  /-- The index and fraction fields fit the phase word (R10). -/
  fits : s.valid = true → s.ls.toNat + c.F ≤ 32
  /-- LOMASK is `SIZE - 1` (R20). -/
  mask : s.valid = true → s.loMask = loMaskOf s.ls
  /-- RADTOINC is `SIZE × 2^F / U` (R19). -/
  scale : s.valid = true → c.num.val s.radToInc = (tableSize s.ls : ℝ) * 2 ^ c.F / c.num.val c.U
  /-- CPSTOINC is `SIZE × 2^F × T` for a positive `T` (R7, R18). -/
  period : s.valid = true → ∃ T : ℝ, 0 < T ∧ c.num.val s.cpsToInc = (tableSize s.ls : ℝ) * 2 ^ c.F * T
  /-- The wavetable is whole as long as the host keeps it (R35, R125). -/
  table : s.valid = true → s.tabMutated = false → Memory.supplies s.tab (tableSize s.ls) = true
  /-- The last output lies within the table's range (R86, R130). -/
  bounded : s.valid = true → s.tabMutated = false →
    ∀ lo hi, TableWithin c s lo hi → lo ≤ c.num.val s.prevOut ∧ c.num.val s.prevOut ≤ hi

/-! ### What a block computes -/

/-- `w` is `TRUNC32(r)` of the real number `r` (R76). -/
def TruncatesTo (r : ℝ) (w : Word) : Prop := (0 ≤ r → w = wrap32 ⌊r⌋) ∧ (r ≤ 0 → w = wrap32 ⌈r⌉)

/-- The accumulator values `P` and outputs `Y` of a block of `n` samples, written as recurrences over the real numbers
(R92): `P i` and `Y i` stand before sample `i`. `finc i` and `pinc i` are the frequency increment and the phase-offset
parameter of sample `i`, `k` is the feedback coefficient. -/
def BlockTrace (c : Config) (s : State) (k : NumVal) (finc pinc : Nat → ℝ) (n : Nat) (P : Nat → Word) (Y : Nat → NumVal) :
    Prop :=
  P 0 = s.phase ∧ Y 0 = s.prevOut ∧
    ∀ i, i < n → ∃ inc off,
      TruncatesTo (finc i) inc ∧ P (i + 1) = P i + inc ∧
      TruncatesTo (pinc i + c.num.val s.radToInc * c.num.val (feedback c (Y i) k)) off ∧
      lookup c s (P (i + 1) + off) = some (Y (i + 1))

/-- The values of a per-sample input in a block of `n` samples (R80): each element scaled. -/
def ScaledValues (c : Config) (K : NumVal) (x : Nat → NumVal) (n : Nat) (inc : Nat → ℝ) : Prop :=
  ∀ i, i < n → inc i = c.num.val K * c.num.val (x i)

/-- The values of a per-block input in a block of `n` samples (R81, R82): held if the scalar is unchanged, else on the
straight line from the latched to the new scalar. -/
def RampValues (c : Config) (K prev new : NumVal) (n : Nat) (inc : Nat → ℝ) : Prop :=
  ∀ i : Nat, i < n →
    inc i = c.num.val K * c.num.val prev + i * (c.num.val K * (c.num.val new - c.num.val prev) / n)

/-- OUT after a block (R40): elements 0 to `n - 1` hold the outputs, every other element is as before. -/
def OutWritten (s t : State) (n : Nat) (Y : Nat → NumVal) : Prop :=
  (∀ i, i < n → Memory.read t.out i = some (Y (i + 1))) ∧
    ∀ i, n ≤ i → Memory.read t.out i = Memory.read s.out i

/-! ### What the registers of no instance can do -/

/-- Two states that differ at most in the registers CONSTRUCT writes. -/
def sameButRegisters (s t : State) : Prop :=
  t.tab = s.tab ∧ t.fin = s.fin ∧ t.pin = s.pin ∧ t.bin = s.bin ∧ t.cfg = s.cfg ∧ t.out = s.out ∧
    t.host = s.host ∧ t.tabMutated = s.tabMutated ∧ t.unsetDraws = s.unsetDraws

/-- Equal, or both without an instance and equal outside the registers, which then hold no value (R31, R33). -/
def indistinct (s t : State) : Prop :=
  s = t ∨ (s.valid = false ∧ t.valid = false ∧ sameButRegisters s t)

/-- The same refusal, or next states that `R` relates. -/
def outcomesAlike (R : State → State → Prop) :
    Host.Outcome State Fault Refusal → Host.Outcome State Fault Refusal → Prop
  | .next s, .next t => R s t
  | .fault r, .fault q => r = q
  | .refused r, .refused q => r = q
  | _, _ => False

/-! ### Two names of one number -/

/-- Two values are the same number (log 1). -/
def sameNum (c : Config) (x y : NumVal) : Prop := c.num.val x = c.num.val y

/-- Two spaces list the same indices with the same numbers. -/
def sameSpace (c : Config) (m m' : Memory) : Prop := List.Forall₂ (fun p q => p.1 = q.1 ∧ sameNum c p.2 q.2) m m'

/-- Two acts of the host are the same but for the names of numbers. -/
def sameAct (c : Config) : HostAct → HostAct → Prop
  | .command w, .command w' => w = w'
  | .commandEarly w, .commandEarly w' => w = w'
  | .place sp xs, .place sp' xs' => sp = sp' ∧ List.Forall₂ (sameNum c) xs xs'
  | .poke sp k v, .poke sp' k' v' => sp = sp' ∧ k = k' ∧ sameNum c v v'
  | _, _ => False

/-- Two states hold the same words, choices and numbers, the numbers perhaps under other names. -/
structure sameNumbers (c : Config) (s t : State) : Prop where
  phase : t.phase = s.phase
  prevOut : sameNum c s.prevOut t.prevOut
  prevFreq : sameNum c s.prevFreq t.prevFreq
  prevPhase : sameNum c s.prevPhase t.prevPhase
  cpsToInc : sameNum c s.cpsToInc t.cpsToInc
  radToInc : sameNum c s.radToInc t.radToInc
  loMask : t.loMask = s.loMask
  variant : t.variant = s.variant
  ls : t.ls = s.ls
  tabRef : t.tabRef = s.tabRef
  valid : t.valid = s.valid
  spaces : ∀ sp, sameSpace c (s.space sp) (t.space sp)
  host : List.Forall₂ (sameAct c) s.host t.host
  tabMutated : t.tabMutated = s.tabMutated
  unsetDraws : t.unsetDraws = s.unsetDraws

end Sys2Proof.Safety
end

