-- ==== Sys2Proof/Certificates/Slice0/Obligations.lean ====
section
/-! DEFINITION. The statements for the provers. Each docstring names the rules it rests on. -/

open Sys2Proof Sys2Proof.Machine Sys2Proof.Safety

/-! ### Encoding -/

/-- Decoding the word of a well-formed command gives the command back (R67). -/
def Obligations.DecodeOfEncodeIsTheCommand : Prop :=
  ∀ i : Instr, i.wellFormed = true → decode (encode i) = .ok i

/-- A word that decodes to a command is that command's word, and the command is well-formed (R65, R67): no two words
decode to one command and no bit of a word is dropped. -/
def Obligations.DecodedWordIsTheCommandsWord : Prop :=
  ∀ (w : Word) (i : Instr), decode w = .ok i → encode i = w ∧ i.wellFormed = true

/-- A word decodes to a command of a row exactly if it matches the row's mask and value and, for a GEN row, `N` is not 0
(the mask and match table of R67). -/
def Obligations.DecodeFollowsTheOpcodeTable : Prop :=
  ∀ w : Word,
    ((∃ v l, decode w = .ok (.construct v l)) ↔ w &&& 0xF01FFFFF#32 = 0x10000000#32) ∧
    ((∃ n, decode w = .ok (.genAA n)) ↔ w &&& 0xFC000000#32 = 0x20000000#32 ∧ w &&& 0x03FFFFFF#32 ≠ 0#32) ∧
    ((∃ n, decode w = .ok (.genAK n)) ↔ w &&& 0xFC000000#32 = 0x24000000#32 ∧ w &&& 0x03FFFFFF#32 ≠ 0#32) ∧
    ((∃ n, decode w = .ok (.genKA n)) ↔ w &&& 0xFC000000#32 = 0x28000000#32 ∧ w &&& 0x03FFFFFF#32 ≠ 0#32) ∧
    ((∃ n, decode w = .ok (.genKK n)) ↔ w &&& 0xFC000000#32 = 0x2C000000#32 ∧ w &&& 0x03FFFFFF#32 ≠ 0#32) ∧
    (decode w = .ok .release ↔ w = 0x30000000#32)

/-- The fields of a decoded word stand at their bits (R58, R59, R60): LS at 25..21 of a CONSTRUCT, N at 25..0 of a GEN,
FK at bit 27 and PK at bit 26 of both. -/
def Obligations.FieldsAreReadAtTheirBits : Prop :=
  ∀ w : Word,
    (∀ v l, decode w = .ok (.construct v l) →
      l.toNat = w.toNat / 2 ^ 21 % 2 ^ 5 ∧ v.fk = w.getLsbD 27 ∧ v.pk = w.getLsbD 26) ∧
    (∀ v n, decode w = .ok (Instr.gen v n) →
      n.toNat = w.toNat % 2 ^ 26 ∧ v.fk = w.getLsbD 27 ∧ v.pk = w.getLsbD 26)

/-- A GEN word with `N = 0` is reserved and refused (R62), in every state. So is the GEN term with `N = 0`, which has no
word: that clause is the model's own (log 16). -/
def Obligations.EmptyBlockIsRefused : Prop :=
  (∀ (w : Word) (s : State), w.toNat / 2 ^ 28 = 2 → w.toNat % 2 ^ 26 = 0 →
    decode w = .error .emptyBlock ∧ receive w s = .refused (.reserved .emptyBlock)) ∧
  ∀ (v : Variant) (s : State), exec (Instr.gen v 0#26) s = .refused (.reserved .emptyBlock)

/-- A word whose OPC is 0 or 4 to 15 is reserved and refused, in every state (R63). -/
def Obligations.ReservedOpcodeIsRefused : Prop :=
  ∀ (w : Word) (s : State), (w.toNat / 2 ^ 28 = 0 ∨ 4 ≤ w.toNat / 2 ^ 28) →
    decode w = .error .opcode ∧ receive w s = .refused (.reserved .opcode)

/-- A CONSTRUCT word with any of bits 20..0 set and a RELEASE word with any of bits 27..0 set are reserved and refused, in
every state (R64). -/
def Obligations.SetReservedBitIsRefused : Prop :=
  ∀ (w : Word) (s : State),
    ((w.toNat / 2 ^ 28 = 1 ∧ w.toNat % 2 ^ 21 ≠ 0) ∨ (w.toNat / 2 ^ 28 = 3 ∧ w.toNat % 2 ^ 28 ≠ 0)) →
    decode w = .error .zeroField ∧ receive w s = .refused (.reserved .zeroField)

/-- Every word is a command, run in every state, or refused in every state (R65). -/
def Obligations.EveryWordIsACommandOrRefused : Prop :=
  ∀ w : Word,
    (∃ i, decode w = .ok i ∧ ∀ s, receive w s = exec i s) ∨
    (∃ r, decode w = .error r ∧ ∀ s, receive w s = .refused (.reserved r))

/-- Some worked encodings of R67, one of each command. -/
def Obligations.WorkedWordsDecode : Prop :=
  decode 0x14400000#32 = .ok (.construct .ak 2#5) ∧ decode 0x1DA00000#32 = .ok (.construct .kk 13#5) ∧
  decode 0x20000004#32 = .ok (.genAA 4#26) ∧ decode 0x24000004#32 = .ok (.genAK 4#26) ∧
  decode 0x28000004#32 = .ok (.genKA 4#26) ∧ decode 0x2C000040#32 = .ok (.genKK 64#26) ∧
  decode 0x30000000#32 = .ok .release

/-! ### The step and the host -/

/-- A word on the command port that decodes to `i` is run: the step is `exec i`, on the state less that act (R53); and a
table row's word stored by `withFetchWord` is the one that runs. The queue of host acts is the model's own (log 5). -/
def Obligations.StepRunsTheDecodedCommand : Prop :=
  (∀ (s : State) (w : Word) (rest : List HostAct) (i : Instr), s.host = .command w :: rest → decode w = .ok i →
    step s = exec i (s.withHost rest)) ∧
  ∀ (s : State) (nbits w : Nat) (i : Instr), decodeTableWord nbits w = some i →
    step (s.withFetchWord nbits w) = exec i s

/-- With no act of the host pending the core holds its state and does nothing (R116; as a step, log 15). -/
def Obligations.StepWithNoActHoldsTheState : Prop :=
  ∀ s : State, s.host = [] → step s = .next s

/-- A word issued before the previous command ended is refused (R124; as an act of its own, log 7). -/
def Obligations.EarlyCommandIsRefused : Prop :=
  ∀ (s : State) (w : Word) (rest : List HostAct), s.host = .commandEarly w :: rest → step s = .refused .concurrent

/-- A host write of a space changes that space, as the host says, and nothing else but the pending acts and, for TAB while
VALID is 1, the record of the broken contract (R51, R111; logs 5, 6, 19). -/
def Obligations.HostWriteChangesOneSpace : Prop :=
  (∀ (s : State) (sp : Space) (xs : List NumVal) (rest : List HostAct), s.host = .place sp xs :: rest →
    ∃ t, step s = .next t ∧ (∀ k, Memory.read (t.space sp) k = xs[k]?) ∧ (∀ q, q ≠ sp → t.space q = s.space q) ∧
      t = { s with
        tab := t.tab, fin := t.fin, pin := t.pin, bin := t.bin, cfg := t.cfg, out := t.out, host := rest
        tabMutated := s.tabMutated || (s.valid && sp == .tab) }) ∧
  ∀ (s : State) (sp : Space) (k : Nat) (v : NumVal) (rest : List HostAct), s.host = .poke sp k v :: rest →
    ∃ t, step s = .next t ∧ Memory.read (t.space sp) k = some v ∧
      (∀ j, j ≠ k → Memory.read (t.space sp) j = Memory.read (s.space sp) j) ∧
      (∀ q, q ≠ sp → t.space q = s.space q) ∧
      t = { s with
        tab := t.tab, fin := t.fin, pin := t.pin, bin := t.bin, cfg := t.cfg, out := t.out, host := rest
        tabMutated := s.tabMutated || (s.valid && sp == .tab) }

/-- Once the host has written TAB while VALID was 1, as a whole or one element of it, every later command is refused and
no step forgets it (R51, R107, R125; log 6). -/
def Obligations.TableWriteRefusesEveryLaterCommand : Prop :=
  (∀ (s : State) (xs : List NumVal) (rest : List HostAct), s.valid = true → s.host = .place .tab xs :: rest →
    ∃ t, step s = .next t ∧ t.tabMutated = true) ∧
  (∀ (s : State) (k : Nat) (v : NumVal) (rest : List HostAct), s.valid = true → s.host = .poke .tab k v :: rest →
    ∃ t, step s = .next t ∧ t.tabMutated = true) ∧
  (∀ s t : State, s.tabMutated = true → step s = .next t → t.tabMutated = true) ∧
  ∀ (i : Instr) (s : State), i.wellFormed = true → s.tabMutated = true → exec i s = .refused .tableMutated

/-- Every step, from every state, answers a next state or a refusal of the closed list of R107 (R11, R12, R104): none ends
in a fault, none in a refusal outside the list, and none in NonFinite, which the exact `NUM` cannot meet (log 8). -/
def Obligations.EveryStepCompletesOrIsRefused : Prop :=
  ∀ s : State, (∃ t, step s = .next t) ∨
    ∃ r, step s = .refused r ∧
      ((∃ why, r = .reserved why) ∨ r = .badTableSize ∨ r = .notConstructed ∨ r = .shapeMismatch ∨ r = .shortBuffer ∨
        r = .tableMutated ∨ r = .concurrent ∨ r = .badPeriod)

/-! ### The datapath -/

/-- `TRUNC32` drops the fraction toward zero, then wraps modulo 2^32, with the examples of R76, whatever the
configuration. -/
def Obligations.TruncationIsTowardZeroThenWraps : Prop :=
  ∀ c : Config,
    (∀ r : NumVal, ∃ z : Int, |(z : ℝ)| ≤ |c.num.val r| ∧ |c.num.val r - z| < 1 ∧ 0 ≤ z * c.num.val r ∧
      (2 ^ 32 : Int) ∣ (trunc32 c r).toInt - z ∧ -2 ^ 31 ≤ (trunc32 c r).toInt ∧ (trunc32 c r).toInt ≤ 2 ^ 31 - 1) ∧
    (trunc32 c (.rat (3 / 2))).toInt = 1 ∧ (trunc32 c (.rat (-3 / 2))).toInt = -1 ∧
    (trunc32 c (.rat (-1 / 2))).toInt = 0 ∧ (trunc32 c (.rat (999 / 1000))).toInt = 0 ∧
    (trunc32 c (.rat (2 ^ 31 - 1 / 2))).toInt = 2 ^ 31 - 1 ∧ (trunc32 c (.rat (2 ^ 31))).toInt = -2 ^ 31 ∧
    (trunc32 c (.rat (-2 ^ 31 - 1 / 2))).toInt = -2 ^ 31 ∧ (trunc32 c (.rat (-2 ^ 31 - 1))).toInt = 2 ^ 31 - 1 ∧
    (trunc32 c (.rat (2 ^ 32 + 37 / 10))).toInt = 3 ∧ (trunc32 c (.rat (-2 ^ 32 - 5 / 2))).toInt = -2

/-- `+32` is addition modulo 2^32 in two's complement, with the examples of R77. -/
def Obligations.AdderWrapsModulo : Prop :=
  (∀ a b : Word, (2 ^ 32 : Int) ∣ (add32 a b).toInt - (a.toInt + b.toInt) ∧ -2 ^ 31 ≤ (add32 a b).toInt ∧
    (add32 a b).toInt ≤ 2 ^ 31 - 1) ∧
  add32 0x7FFFC000#32 0x00008000#32 = 0x80004000#32 ∧ add32 0xC000C000#32 0x40004000#32 = 0x00010000#32

/-- The feedback term: linear for a positive coefficient, quadratic for a negative one, 0 for 0 (R78). -/
def Obligations.FeedbackHasThreeCases : Prop :=
  ∀ (c : Config) (prev k : NumVal),
    (0 < c.num.val k → c.num.val (feedback c prev k) = c.num.val prev * c.num.val k) ∧
    (c.num.val k < 0 → c.num.val (feedback c prev k) = c.num.val prev ^ 2 * c.num.val k) ∧
    (c.num.val k = 0 → c.num.val (feedback c prev k) = 0)

/-- The sign of the feedback term (R79). -/
def Obligations.FeedbackSignIsFixed : Prop :=
  ∀ (c : Config) (prev k : NumVal),
    (c.num.val k < 0 → c.num.val (feedback c prev k) ≤ 0) ∧
    (0 < c.num.val k →
      (0 < c.num.val prev → 0 < c.num.val (feedback c prev k)) ∧
      (c.num.val prev < 0 → c.num.val (feedback c prev k) < 0) ∧
      (c.num.val prev = 0 → c.num.val (feedback c prev k) = 0)) ∧
    (c.num.val k = 0 → c.num.val (feedback c prev k) = 0)

/-- LOOKUP interpolates between the two table entries the position names, read by arithmetic on the unsigned position
(R84, R85): entry `pos / 2^F mod SIZE` and the next one, entry 0 after the last, at the fraction `pos mod 2^F / 2^F`. -/
def Obligations.LookupInterpolatesAdjacentEntries : Prop :=
  ∀ (c : Config) (s : State) (pos : Word), tableFits s = true →
    ∃ t0 t1 y, Memory.read s.tab (pos.toNat / 2 ^ c.F % 2 ^ s.ls.toNat) = some t0 ∧
      Memory.read s.tab ((pos.toNat / 2 ^ c.F + 1) % 2 ^ s.ls.toNat) = some t1 ∧ lookup c s pos = some y ∧
      c.num.val y
        = c.num.val t0 + ((pos.toNat % 2 ^ c.F : Nat) : ℝ) / 2 ^ c.F * (c.num.val t1 - c.num.val t0)

/-- A lookup never leaves the table, repeats every `SIZE × 2^F` units, and lies between its two entries (R86). -/
def Obligations.LookupStaysInTheTable : Prop :=
  ∀ (c : Config) (s : State) (pos : Word), tableFits s = true → s.ls.toNat + c.F ≤ 32 →
    (lookupIndex c s.loMask pos).toNat < 2 ^ s.ls.toNat ∧ (lookupNext c s.loMask pos).toNat < 2 ^ s.ls.toNat ∧
    lookup c s (pos + wrap32 ((2 ^ s.ls.toNat * 2 ^ c.F : Nat) : Int)) = lookup c s pos ∧
    ∃ t0 t1 y, Memory.read s.tab (lookupIndex c s.loMask pos).toNat = some t0 ∧
      Memory.read s.tab (lookupNext c s.loMask pos).toNat = some t1 ∧ lookup c s pos = some y ∧
      min (c.num.val t0) (c.num.val t1) ≤ c.num.val y ∧ c.num.val y ≤ max (c.num.val t0) (c.num.val t1)

/-- A per-block scalar that changes from `A` to `B` in a block of `N` samples: sample `i` uses `K × (A + i (B - A) / N)`,
sample 0 of the next block `K × B` if the scalar is then unchanged, and the first difference is `K × (B - A) / N`
throughout, into the next block too (R103; R81, R82). `run` is what the machine uses in each sample. -/
def Obligations.RampIsExactlyLinear : Prop :=
  ∀ (c : Config) (A B K : NumVal) (N M : Nat) (x : Option NumVal), 1 ≤ N → 1 ≤ M →
    ∃ run : Nat → NumVal,
      (∀ i : Nat, i < N →
        ((Source.stepped c)^[i] (Source.ofScalar c B A K N)).select c K x = some (run i) ∧
        c.num.val (run i) = c.num.val K * (c.num.val A + i * (c.num.val B - c.num.val A) / N)) ∧
      (Source.ofScalar c B B K M).select c K x = some (run N) ∧ c.num.val (run N) = c.num.val K * c.num.val B ∧
      ∀ i : Nat, i < N →
        c.num.val (run (i + 1)) - c.num.val (run i) = c.num.val K * (c.num.val B - c.num.val A) / N

/-- Running `a + b` samples is running `a` and then `b` from where they stopped: a GEN command may be seen as sample steps
(R94, R131, D30). -/
def Obligations.SamplesCompose : Prop :=
  ∀ (c : Config) (emit : Bool) (a b i : Nat) (blk : Block) (s : State),
    samples c emit (a + b) i blk s = (samples c emit a i blk s).bind fun p => samples c emit b (i + a) p.1 p.2

/-! ### Construction and release -/

/-- CONSTRUCT completes, whatever VALID is, and leaves the closed form of R72, with the constants of R70; the feedback
coefficient at BIN[0] must be there and appears in no register. OUT and every other part of the state are as before. -/
def Obligations.ConstructLeavesTheClosedForm : Prop :=
  ∀ (var : Variant) (ls : BitVec 5) (s : State) (T f0 p0 k0 : NumVal),
    s.tabMutated = false → ls.toNat + Config.hw.F ≤ 32 →
    Memory.read s.cfg 0 = some T → 0 < Config.hw.num.val T →
    Memory.read s.fin 0 = some f0 → Memory.read s.pin 0 = some p0 → Memory.read s.bin 0 = some k0 →
    Memory.supplies s.tab (2 ^ ls.toNat) = true →
    ∃ cps rad inc off y,
      Config.hw.num.val cps = 2 ^ ls.toNat * 2 ^ Config.hw.F * Config.hw.num.val T ∧
      Config.hw.num.val rad = 2 ^ ls.toNat * 2 ^ Config.hw.F / Config.hw.num.val Config.hw.U ∧
      TruncatesTo (Config.hw.num.val cps * Config.hw.num.val f0) inc ∧
      TruncatesTo (Config.hw.num.val rad * Config.hw.num.val p0) off ∧
      lookup Config.hw { s with loMask := BitVec.ofNat 32 (2 ^ ls.toNat - 1) } (inc + off) = some y ∧
      exec (.construct var ls) s = .next { s with
        phase := inc, prevOut := y, prevFreq := f0, prevPhase := p0, cpsToInc := cps, radToInc := rad
        loMask := BitVec.ofNat 32 (2 ^ ls.toNat - 1), variant := var, ls := ls, tabRef := .tab, valid := true }

/-- The result of CONSTRUCT does not depend on any register, VALID among them: nothing of an old instance survives (R73,
R119). -/
def Obligations.ConstructIgnoresTheOldInstance : Prop :=
  ∀ (var : Variant) (ls : BitVec 5) (s t : State), sameButRegisters s t →
    exec (.construct var ls) s = exec (.construct var ls) t

/-- When CONSTRUCT refuses, and with which name (R10, R69, R107), in the order of the pseudocode, for every hardware
configuration; `exec` runs it on the machine's own. -/
def Obligations.ConstructRefusesMalformedInputs : Prop :=
  (∀ (c : Config) (var : Variant) (ls : BitVec 5) (s : State), s.tabMutated = false →
    (32 < ls.toNat + c.F → construct c var ls s = .refused .badTableSize) ∧
    (ls.toNat + c.F ≤ 32 → Memory.read s.cfg 0 = none → construct c var ls s = .refused .shortBuffer) ∧
    (ls.toNat + c.F ≤ 32 → ∀ T, Memory.read s.cfg 0 = some T → c.num.val T ≤ 0 → construct c var ls s = .refused .badPeriod) ∧
    (ls.toNat + c.F ≤ 32 → ∀ T, Memory.read s.cfg 0 = some T → 0 < c.num.val T →
      (Memory.read s.fin 0 = none ∨ Memory.read s.pin 0 = none ∨ Memory.read s.bin 0 = none ∨
        ∃ k, k < 2 ^ ls.toNat ∧ Memory.read s.tab k = none) →
      construct c var ls s = .refused .shortBuffer)) ∧
  ∀ (var : Variant) (ls : BitVec 5) (s : State), exec (.construct var ls) s = construct Config.hw var ls s

/-- RELEASE completes on a valid instance: VALID is 0 after it, no space is written and the host's acts are as before
(R33, R74). The registers then hold no value: nothing is said of them (log 4). -/
def Obligations.ReleaseEndsTheInstance : Prop :=
  ∀ s : State, s.tabMutated = false → s.valid = true →
    ∃ t, exec .release s = .next t ∧ t.valid = false ∧ (∀ sp, t.space sp = s.space sp) ∧ t.host = s.host ∧
      t.tabMutated = false

/-- Without an instance no command but CONSTRUCT is admitted (R24, R31, R127). -/
def Obligations.NothingElseRunsWithoutAnInstance : Prop :=
  ∀ (i : Instr) (s : State), i.wellFormed = true → (∀ v l, i ≠ .construct v l) → s.tabMutated = false →
    s.valid = false → exec i s = .refused .notConstructed

/-- At power-on VALID is 0, so no command but CONSTRUCT is admitted (R31, R118). That the spaces are then empty is the
model's choice (log 11); of the other registers nothing is said (log 3). -/
def Obligations.PowerOnHasNoInstance : Prop :=
  State.reset.valid = false ∧
  ∀ i : Instr, i.wellFormed = true → (∀ v l, i ≠ .construct v l) → exec i State.reset = .refused .notConstructed

/-! ### Generation -/

/-- GEN.AA completes on an admitted block and computes the recurrences of R92 with both inputs per-sample (R95): PHASE,
PREVOUT and OUT[0..n-1] written, nothing else. -/
def Obligations.GenAAFollowsTheRecurrences : Prop :=
  ∀ (n : BitVec 26) (s : State) (f p : Nat → NumVal) (k : NumVal),
    n ≠ 0#26 → s.tabMutated = false → s.valid = true → s.variant = .aa → tableFits s = true →
    (∀ i, i < n.toNat → Memory.read s.fin i = some (f i)) → (∀ i, i < n.toNat → Memory.read s.pin i = some (p i)) →
    Memory.read s.bin 0 = some k → Memory.supplies s.out n.toNat = true →
    ∃ finc pinc P Y t,
      ScaledValues Config.hw s.cpsToInc f n.toNat finc ∧
      ScaledValues Config.hw s.radToInc p n.toNat pinc ∧
      BlockTrace Config.hw s k finc pinc n.toNat P Y ∧
      exec (.genAA n) s = .next t ∧ OutWritten s t n.toNat Y ∧
      t = { s with phase := P n.toNat, prevOut := Y n.toNat, out := t.out }

/-- GEN.AK completes on an admitted block: frequency per-sample, phase offset ramped (R96); PREVPHASE latched too. -/
def Obligations.GenAKFollowsTheRecurrences : Prop :=
  ∀ (n : BitVec 26) (s : State) (f : Nat → NumVal) (pnew k : NumVal),
    n ≠ 0#26 → s.tabMutated = false → s.valid = true → s.variant = .ak → tableFits s = true →
    (∀ i, i < n.toNat → Memory.read s.fin i = some (f i)) → Memory.read s.pin 0 = some pnew →
    Memory.read s.bin 0 = some k → Memory.supplies s.out n.toNat = true →
    ∃ finc pinc P Y t,
      ScaledValues Config.hw s.cpsToInc f n.toNat finc ∧
      RampValues Config.hw s.radToInc s.prevPhase pnew n.toNat pinc ∧
      BlockTrace Config.hw s k finc pinc n.toNat P Y ∧
      exec (.genAK n) s = .next t ∧ OutWritten s t n.toNat Y ∧
      t = { s with phase := P n.toNat, prevOut := Y n.toNat, prevPhase := pnew, out := t.out }

/-- GEN.KA completes on an admitted block: frequency ramped, phase offset per-sample (R97); PREVFREQ latched too. -/
def Obligations.GenKAFollowsTheRecurrences : Prop :=
  ∀ (n : BitVec 26) (s : State) (fnew : NumVal) (p : Nat → NumVal) (k : NumVal),
    n ≠ 0#26 → s.tabMutated = false → s.valid = true → s.variant = .ka → tableFits s = true →
    Memory.read s.fin 0 = some fnew → (∀ i, i < n.toNat → Memory.read s.pin i = some (p i)) →
    Memory.read s.bin 0 = some k → Memory.supplies s.out n.toNat = true →
    ∃ finc pinc P Y t,
      RampValues Config.hw s.cpsToInc s.prevFreq fnew n.toNat finc ∧
      ScaledValues Config.hw s.radToInc p n.toNat pinc ∧
      BlockTrace Config.hw s k finc pinc n.toNat P Y ∧
      exec (.genKA n) s = .next t ∧ OutWritten s t n.toNat Y ∧
      t = { s with phase := P n.toNat, prevOut := Y n.toNat, prevFreq := fnew, out := t.out }

/-- GEN.KK completes on an admitted block: both inputs ramped (R98); both latches written too. -/
def Obligations.GenKKFollowsTheRecurrences : Prop :=
  ∀ (n : BitVec 26) (s : State) (fnew pnew k : NumVal),
    n ≠ 0#26 → s.tabMutated = false → s.valid = true → s.variant = .kk → tableFits s = true →
    Memory.read s.fin 0 = some fnew → Memory.read s.pin 0 = some pnew →
    Memory.read s.bin 0 = some k → Memory.supplies s.out n.toNat = true →
    ∃ finc pinc P Y t,
      RampValues Config.hw s.cpsToInc s.prevFreq fnew n.toNat finc ∧
      RampValues Config.hw s.radToInc s.prevPhase pnew n.toNat pinc ∧
      BlockTrace Config.hw s k finc pinc n.toNat P Y ∧
      exec (.genKK n) s = .next t ∧ OutWritten s t n.toNat Y ∧
      t = { s with phase := P n.toNat, prevOut := Y n.toNat, prevFreq := fnew, prevPhase := pnew, out := t.out }

/-- A GEN word whose VAR is not the bound variant is refused (R94, R107, R126). -/
def Obligations.WrongShapeIsRefused : Prop :=
  ∀ (v : Variant) (n : BitVec 26) (s : State), n ≠ 0#26 → s.tabMutated = false → s.valid = true → s.variant ≠ v →
    exec (Instr.gen v n) s = .refused .shapeMismatch

/-- A GEN command refuses if one of the elements it reads or writes is not supplied (R42, R94, R107): BIN[0]; FIN[0] or
FIN[0..n-1] and PIN[0] or PIN[0..n-1] by rate class; OUT[0..n-1]. -/
def Obligations.MissingElementIsRefused : Prop :=
  ∀ (v : Variant) (n : BitVec 26) (s : State),
    n ≠ 0#26 → s.tabMutated = false → s.valid = true → s.variant = v →
    (Memory.read s.bin 0 = none ∨ (∃ i, i < (if v.fk then 1 else n.toNat) ∧ Memory.read s.fin i = none) ∨
      (∃ i, i < (if v.pk then 1 else n.toNat) ∧ Memory.read s.pin i = none) ∨
      ∃ i, i < n.toNat ∧ Memory.read s.out i = none) →
    exec (Instr.gen v n) s = .refused .shortBuffer

/-- After a GEN command PREVOUT is the value written to OUT[N-1]; PREVFREQ and PREVPHASE are the raw scalars read, where
the variant has them per-block, else unchanged (R90, R99). -/
def Obligations.GenLatchesTheScalarsAndTheLastOutput : Prop :=
  ∀ (v : Variant) (n : BitVec 26) (s t : State), exec (Instr.gen v n) s = .next t →
    Memory.read t.out (n.toNat - 1) = some t.prevOut ∧
    (v.fk = true → Memory.read s.fin 0 = some t.prevFreq) ∧ (v.fk = false → t.prevFreq = s.prevFreq) ∧
    (v.pk = true → Memory.read s.pin 0 = some t.prevPhase) ∧ (v.pk = false → t.prevPhase = s.prevPhase)

/-- Held per-block inputs and constant per-sample arrays give the same OUT, PHASE and PREVOUT: GEN.AA against each other
variant, on equal states but for VARIANT (R100). Where the other variant has an input per-sample, both read the same
array. -/
def Obligations.HeldScalarsEqualConstantArrays : Prop :=
  ∀ (v : Variant) (n : BitVec 26) (s : State) (f p : ℝ),
    n ≠ 0#26 → s.tabMutated = false → s.valid = true → tableFits s = true →
    Memory.supplies s.fin n.toNat = true → Memory.supplies s.pin n.toNat = true →
    Memory.supplies s.bin 1 = true → Memory.supplies s.out n.toNat = true →
    (v.fk = true → Config.hw.num.val s.prevFreq = f ∧
      ∀ i x, i < n.toNat → Memory.read s.fin i = some x → Config.hw.num.val x = f) →
    (v.pk = true → Config.hw.num.val s.prevPhase = p ∧
      ∀ i x, i < n.toNat → Memory.read s.pin i = some x → Config.hw.num.val x = p) →
    ∃ t t', exec (.genAA n) { s with variant := .aa } = .next t ∧
      exec (Instr.gen v n) { s with variant := v } = .next t' ∧
      t'.out = t.out ∧ t'.phase = t.phase ∧ t'.prevOut = t.prevOut

/-- With `BIN[0] = 0` PREVOUT never affects a block (R101): whatever it holds before, a GEN command does the same. -/
def Obligations.ZeroFeedbackIgnoresThePreviousOutput : Prop :=
  ∀ (v : Variant) (n : BitVec 26) (s : State) (k y : NumVal),
    Memory.read s.bin 0 = some k → Config.hw.num.val k = 0 →
    exec (Instr.gen v n) { s with prevOut := y } = exec (Instr.gen v n) s

/-- From CONSTRUCT on with both inputs per-block, unchanged and without feedback, sample `i` of the first block is the
table at `(i + 2) × inc + off`: the warm-up has taken the first increment (R102, R72; 90_conflicts C2). -/
def Obligations.FirstBlockWalksTheTable : Prop :=
  ∀ (ls : BitVec 5) (n : BitVec 26) (s : State) (T f0 p0 k0 : NumVal),
    n ≠ 0#26 → s.tabMutated = false → ls.toNat + Config.hw.F ≤ 32 →
    Memory.read s.cfg 0 = some T → 0 < Config.hw.num.val T →
    Memory.read s.fin 0 = some f0 → Memory.read s.pin 0 = some p0 →
    Memory.read s.bin 0 = some k0 → Config.hw.num.val k0 = 0 →
    Memory.supplies s.tab (2 ^ ls.toNat) = true → Memory.supplies s.out n.toNat = true →
    ∃ t u inc off, exec (.construct .kk ls) s = .next t ∧ exec (.genKK n) t = .next u ∧
      TruncatesTo (Config.hw.num.val t.cpsToInc * Config.hw.num.val f0) inc ∧
      TruncatesTo (Config.hw.num.val t.radToInc * Config.hw.num.val p0) off ∧
      u.phase = BitVec.ofNat 32 (n.toNat + 1) * inc ∧
      ∀ i, i < n.toNat → ∃ y, Memory.read u.out i = some y ∧
        lookup Config.hw t (BitVec.ofNat 32 (i + 2) * inc + off) = some y

/-! ### The whole machine -/

/-- A command completes exactly if it meets every condition of the closed list of R107; a word that is Reserved never
does. The premise is part of the invariant `Inv`. -/
def Obligations.OnlyAdmittedCommandsComplete : Prop :=
  ∀ (s : State) (w : Word) (rest : List HostAct), s.host = .command w :: rest →
    (s.valid = true → s.tabMutated = false → tableFits s = true) →
    ((∃ t, step s = .next t) ↔ ∃ i, decode w = .ok i ∧ admitted Config.hw i s = true)

/-- No command writes an input space, touches the host's acts or breaks the table's contract; CONSTRUCT and RELEASE do not
write OUT, and a GEN of `n` samples writes OUT[0..n-1] only (R34, R40, R44, R48, U15). -/
def Obligations.CommandsWriteOutOnly : Prop :=
  ∀ (i : Instr) (s t : State), exec i s = .next t →
    (∀ sp, sp ≠ .out → t.space sp = s.space sp) ∧ t.host = s.host ∧ t.tabMutated = s.tabMutated ∧
    ((i = .release ∨ ∃ v l, i = .construct v l) → t.out = s.out) ∧
    ∀ v n, i = Instr.gen v n → ∀ k, n.toNat ≤ k → Memory.read t.out k = Memory.read s.out k

/-- Within the life of an instance no step changes its constants or its binding (R29): the host acts that may are
CONSTRUCT and RELEASE. -/
def Obligations.ConstantsNeverChangeWithinAnInstance : Prop :=
  ∀ s t : State, s.valid = true →
    (∀ w rest i, s.host = .command w :: rest → decode w = .ok i → i ≠ .release ∧ ∀ v l, i ≠ .construct v l) →
    step s = .next t →
    t.cpsToInc = s.cpsToInc ∧ t.radToInc = s.radToInc ∧ t.loMask = s.loMask ∧ t.variant = s.variant ∧ t.ls = s.ls ∧
      t.tabRef = s.tabRef ∧ t.valid = true

/-- The invariant holds at power-on. -/
def Obligations.InvariantHoldsAtPowerOn : Prop := Inv Config.hw State.reset

/-- Every step keeps the invariant, from every state that has it: spaces in canonical form; while the instance is valid,
fields that fit the phase word, the table's mask, RADTOINC and CPSTOINC of their formulas; while the table is unbroken, a
whole table and a last output within the table's range (R10, R18, R19, R20, R35, R86). -/
def Obligations.EveryStepKeepsTheInvariant : Prop :=
  ∀ s t : State, Inv Config.hw s → step s = .next t → Inv Config.hw t

/-- The feedback term is bounded by the table's range (R130). -/
def Obligations.FeedbackTermIsBounded : Prop :=
  ∀ (s : State) (k : NumVal) (M : ℝ), Inv Config.hw s → s.valid = true → s.tabMutated = false →
    TableWithin Config.hw s (-M) M →
    (0 < Config.hw.num.val k →
      |Config.hw.num.val (feedback Config.hw s.prevOut k)| ≤ |Config.hw.num.val k| * M) ∧
    (Config.hw.num.val k < 0 →
      |Config.hw.num.val (feedback Config.hw s.prevOut k)| ≤ |Config.hw.num.val k| * M ^ 2)

/-- What the registers of no instance read as is never observed (R24, R31, R33, U14): from two states without an instance
that differ in the registers only, every run goes the same way, step for step, and from the next CONSTRUCT on the states
are equal. So no claim rests on the free values of logs 3 and 4. -/
def Obligations.UnconstructedRegistersAreNeverObserved : Prop :=
  ∀ (m : Nat) (s t : State), indistinct s t →
    outcomesAlike indistinct (Host.Core.run Sys2Proof.core m s) (Host.Core.run Sys2Proof.core m t)

/-- The machine sees numbers, not their names (R8; the names are the model's own, log 1): from two states that hold the
same numbers under perhaps other names, a step ends alike. -/
def Obligations.StepsSeeNumbersNotNames : Prop :=
  ∀ s t : State, sameNumbers Config.hw s t → outcomesAlike (sameNumbers Config.hw) (step s) (step t)
end

