-- ==== Sys2Proof/Laws/Memory.lean ====
section
/-! SUPPORT. What the operations of a space do: reading after writing, the canonical form, what is supplied. -/

namespace Sys2Proof.Machine

theorem Memory.wf_iff (m : Memory) : Memory.wf m = true ↔ m.Pairwise fun a b => a.1 < b.1 := by
  simp [Memory.wf]

@[simp] theorem Memory.wf_nil : Memory.wf [] = true := by decide

@[simp] theorem Memory.read_nil (k : Nat) : Memory.read [] k = none := rfl

theorem Memory.read_cons (a : Nat) (v : NumVal) (m : Memory) (k : Nat) :
    Memory.read ((a, v) :: m) k = if a = k then some v else Memory.read m k := rfl

/-- A write is read back. -/
@[simp] theorem Memory.read_write_same (m : Memory) (k : Nat) (v : NumVal) : Memory.read (Memory.write m k v) k = some v := by
  induction m with
  | nil => simp [Memory.write, Memory.read]
  | cons p m ih =>
    obtain ⟨a, w⟩ := p
    unfold Memory.write
    split_ifs with h1 h2
    · simp [Memory.read]
    · simp [Memory.read]
    · simp [Memory.read_cons, ih, Ne.symm h2]

/-- A write leaves every other element alone. -/
theorem Memory.read_write_other (m : Memory) {k j : Nat} (v : NumVal) (h : j ≠ k) :
    Memory.read (Memory.write m k v) j = Memory.read m j := by
  induction m with
  | nil => simp [Memory.write, Memory.read, Ne.symm h]
  | cons p m ih =>
    obtain ⟨a, w⟩ := p
    unfold Memory.write
    split_ifs with h1 h2
    · simp [Memory.read, Ne.symm h]
    · subst h2; simp [Memory.read, Ne.symm h]
    · simp only [Memory.read_cons, ih]

theorem Memory.read_write (m : Memory) (k j : Nat) (v : NumVal) :
    Memory.read (Memory.write m k v) j = if j = k then some v else Memory.read m j := by
  split_ifs with h
  · subst h; simp
  · exact Memory.read_write_other m v h

/-- Every index of a written space is an old one or the one written. -/
theorem Memory.mem_write {m : Memory} {k : Nat} {v : NumVal} {p : Nat × NumVal} (h : p ∈ Memory.write m k v) :
    p.1 = k ∨ p ∈ m := by
  induction m with
  | nil => simp only [Memory.write, List.mem_singleton] at h; left; simp [h]
  | cons q m ih =>
    obtain ⟨a, w⟩ := q
    unfold Memory.write at h
    split_ifs at h with h1 h2
    · rcases List.mem_cons.1 h with h | h
      · left; simp [h]
      · right; exact h
    · rcases List.mem_cons.1 h with h | h
      · left; simp [h]
      · right; exact List.mem_cons_of_mem _ h
    · rcases List.mem_cons.1 h with h | h
      · right; simp [h]
      · rcases ih h with h | h
        · left; exact h
        · right; exact List.mem_cons_of_mem _ h

/-- A write keeps the canonical form. -/
theorem Memory.wf_write {m : Memory} (k : Nat) (v : NumVal) (h : Memory.wf m = true) :
    Memory.wf (Memory.write m k v) = true := by
  rw [Memory.wf_iff] at h ⊢
  induction m with
  | nil => simp [Memory.write]
  | cons p m ih =>
    obtain ⟨a, w⟩ := p
    rw [List.pairwise_cons] at h
    unfold Memory.write
    split_ifs with h1 h2
    · refine List.pairwise_cons.2 ⟨fun q hq => ?_, List.pairwise_cons.2 h⟩
      rcases List.mem_cons.1 hq with hq | hq
      · simp only [hq]; exact h1
      · exact lt_trans h1 (h.1 q hq)
    · subst h2; exact List.pairwise_cons.2 ⟨h.1, h.2⟩
    · refine List.pairwise_cons.2 ⟨fun q hq => ?_, ih h.2⟩
      rcases Memory.mem_write hq with hq | hq
      · have : a < k := by omega
        simpa [hq] using this
      · exact h.1 q hq

theorem Memory.le_of_mem_fillFrom {xs : List NumVal} {k : Nat} {p : Nat × NumVal} (h : p ∈ Memory.fillFrom k xs) : k ≤ p.1 := by
  induction xs generalizing k with
  | nil => simp [Memory.fillFrom] at h
  | cons x xs ih =>
    rcases List.mem_cons.1 h with h | h
    · simp [h]
    · exact Nat.le_of_succ_le (ih h)

/-- Filling a space gives the canonical form. -/
theorem Memory.wf_ofList (xs : List NumVal) : Memory.wf (Memory.ofList xs) = true := by
  rw [Memory.wf_iff]
  unfold Memory.ofList
  generalize (0 : Nat) = k
  induction xs generalizing k with
  | nil => simp [Memory.fillFrom]
  | cons x xs ih => exact List.pairwise_cons.2 ⟨fun q hq => Memory.le_of_mem_fillFrom hq, ih (k + 1)⟩

theorem Memory.read_fillFrom (xs : List NumVal) (k j : Nat) :
    Memory.read (Memory.fillFrom k xs) j = if k ≤ j then xs[j - k]? else none := by
  induction xs generalizing k with
  | nil => simp [Memory.fillFrom]
  | cons x xs ih =>
    simp only [Memory.fillFrom, Memory.read_cons, ih]
    rcases Nat.lt_trichotomy j k with h | h | h
    · rw [if_neg (by omega), if_neg (by omega), if_neg (by omega)]
    · subst h; simp
    · rw [if_neg (by omega), if_pos (by omega), if_pos (by omega)]
      obtain ⟨d, rfl⟩ := Nat.exists_eq_add_of_lt h
      rw [show k + d + 1 - k = (k + d + 1 - (k + 1)) + 1 by omega, List.getElem?_cons_succ]

/-- What the host has placed is read back. -/
@[simp] theorem Memory.read_ofList (xs : List NumVal) (j : Nat) : Memory.read (Memory.ofList xs) j = xs[j]? := by
  simp [Memory.ofList, Memory.read_fillFrom]

/-- What `supplies` says. -/
theorem Memory.supplies_iff (m : Memory) (n : Nat) :
    Memory.supplies m n = true ↔ ∀ k, k < n → ∃ v, Memory.read m k = some v := by
  induction n with
  | zero => simp [Memory.supplies]
  | succ n ih =>
    simp only [Memory.supplies, Bool.and_eq_true, ih, Option.isSome_iff_exists]
    constructor
    · rintro ⟨h1, h2⟩ k hk
      rcases Nat.lt_succ_iff_lt_or_eq.1 hk with hk | rfl
      · exact h2 k hk
      · exact h1
    · intro h
      exact ⟨h n (Nat.lt_succ_self n), fun k hk => h k (Nat.lt_succ_of_lt hk)⟩

/-- A write takes nothing away. -/
theorem Memory.supplies_write {m : Memory} {n : Nat} (k : Nat) (v : NumVal) (h : Memory.supplies m n = true) :
    Memory.supplies (Memory.write m k v) n = true := by
  rw [Memory.supplies_iff] at h ⊢
  intro j hj
  rw [Memory.read_write]
  split_ifs
  · exact ⟨v, rfl⟩
  · exact h j hj

end Sys2Proof.Machine
end

