-- ==== Sys2Proof/Laws/Numbers.lean ====
section
/-! SUPPORT. What the operations of `NUM` are in the real numbers, and that nothing R6, R7 and R8 admit is shut out: any
positive real is a `U`, and any reals whatever can be the numbers of one run. -/

namespace Sys2Proof

/-! ### The laws of `NUM`, as rewriting rules -/

@[simp] theorem NumSystem.rat_val (N : NumSystem) (q : Rat) : N.val (.rat q) = q := N.val_rat q

@[simp] theorem NumSystem.ofInt_val (N : NumSystem) (n : Int) : N.val (N.ofInt n) = n := N.val_ofInt n

@[simp] theorem NumSystem.add_val (N : NumSystem) (x y : NumVal) : N.val (N.add x y) = N.val x + N.val y := N.val_add x y

@[simp] theorem NumSystem.sub_val (N : NumSystem) (x y : NumVal) : N.val (N.sub x y) = N.val x - N.val y := N.val_sub x y

@[simp] theorem NumSystem.mul_val (N : NumSystem) (x y : NumVal) : N.val (N.mul x y) = N.val x * N.val y := N.val_mul x y

@[simp] theorem Config.real_val (c : Config) (n : Nat) : c.num.val (c.real n) = n := by simp [Config.real]

/-- Division by a number that is not zero. -/
theorem Config.div_val (c : Config) (x : NumVal) {y : NumVal} (h : c.num.val y ≠ 0) :
    c.num.val (c.num.div x y) = c.num.val x / c.num.val y := c.num.val_div x y h

/-! ### What the configuration admits -/

/-- Every countable field of real numbers is the numbers of some `NUM`. -/
theorem NumSystem.exists_of_subfield (K : Subfield ℝ) [Countable K] : ∃ N : NumSystem, ∀ x ∈ K, ∃ y, N.val y = x := by
  classical
  obtain ⟨e, he⟩ := exists_surjective_nat K
  let v : NumVal → ℝ := fun y => match y with
    | .rat q => q
    | .named n => e n
  have hv : ∀ y, v y ∈ K := by
    intro y
    cases y with
    | rat q => exact SubfieldClass.ratCast_mem K q
    | named n => exact (e n).2
  have hn : ∀ x : K, ∃ y, v y = x := fun x => by
    obtain ⟨n, hn⟩ := he x
    exact ⟨.named n, by rw [← hn]⟩
  choose nm hnm using hn
  refine ⟨{
    val := v
    ofInt := fun n => .rat n
    add := fun x y => nm ⟨v x + v y, K.add_mem (hv x) (hv y)⟩
    sub := fun x y => nm ⟨v x - v y, K.sub_mem (hv x) (hv y)⟩
    mul := fun x y => nm ⟨v x * v y, K.mul_mem (hv x) (hv y)⟩
    div := fun x y => nm ⟨v x / v y, K.div_mem (hv x) (hv y)⟩
    pos := fun x => decide (0 < v x)
    neg := fun x => decide (v x < 0)
    eq := fun x y => decide (v x = v y)
    trunc := fun x => if 0 ≤ v x then ⌊v x⌋ else ⌈v x⌉
    val_rat := fun q => rfl
    val_ofInt := fun n => by simp [v]
    val_add := fun x y => by rw [hnm]
    val_sub := fun x y => by rw [hnm]
    val_mul := fun x y => by rw [hnm]
    val_div := fun x y _ => by rw [hnm]
    pos_iff := fun x => by simp
    neg_iff := fun x => by simp
    eq_iff := fun x y => by simp
    trunc_of_nonneg := fun x h => by simp [h]
    trunc_of_nonpos := fun x h => by
      split_ifs with g
      · rw [le_antisymm h g]; simp
      · rfl }, fun x hx => ⟨nm ⟨x, hx⟩, hnm ⟨x, hx⟩⟩⟩

namespace Laws

/-- Nothing the spec's parameters admit is shut out (R5, R6, R7, R8): for every `F`, every positive real `U` and every
sequence of reals (periods, table entries, inputs) there is a configuration that has them all. -/
theorem config_exists (F : Fin 33) (u : ℝ) (hu : 0 < u) (r : ℕ → ℝ) :
    ∃ c : Config, c.fracBits = F ∧ c.num.val c.U = u ∧ ∀ n, ∃ x, c.num.val x = r n := by
  let S : Set ℝ := insert u (Set.range r)
  have hS : S.Countable := (Set.countable_range r).insert u
  have hK : Countable (Subfield.closure S) := by
    rw [← Cardinal.mk_le_aleph0_iff]
    exact (Subfield.cardinalMk_closure_le_max S).trans (max_le (Cardinal.mk_le_aleph0_iff.2 hS.to_subtype) le_rfl)
  obtain ⟨N, hN⟩ := NumSystem.exists_of_subfield (Subfield.closure S)
  obtain ⟨y, hy⟩ := hN u (Subfield.subset_closure (Set.mem_insert u _))
  exact ⟨{ fracBits := F, num := N, U := y, U_pos := by rw [hy]; exact hu }, rfl, hy,
    fun n => hN (r n) (Subfield.subset_closure (Set.mem_insert_of_mem u ⟨n, rfl⟩))⟩

/-- The recommended `F` and `U` (R5, R6), 16 and 2π, are a configuration. -/
theorem config_exists_recommended : ∃ c : Config, c.F = 16 ∧ c.num.val c.U = 2 * Real.pi := by
  obtain ⟨c, h1, h2, -⟩ := config_exists 16 (2 * Real.pi) (by positivity) fun _ => 0
  exact ⟨c, by simp [Config.F, h1], h2⟩

end Laws

namespace Machine

open Sys2Proof.Safety

/-! ### The operations of the machine -/

/-- The machine's truncation is the spec's, of the real number (R76). -/
theorem truncatesTo_trunc32 (c : Config) (r : NumVal) : TruncatesTo (c.num.val r) (trunc32 c r) :=
  ⟨fun h => by rw [trunc32, c.num.trunc_of_nonneg r h], fun h => by rw [trunc32, c.num.trunc_of_nonpos r h]⟩

/-- A real number truncates to one word. -/
theorem truncatesTo_unique {r : ℝ} {w w' : Word} (h : TruncatesTo r w) (h' : TruncatesTo r w') : w = w' := by
  rcases le_total 0 r with hr | hr
  · rw [h.1 hr, h'.1 hr]
  · rw [h.2 hr, h'.2 hr]

/-- Truncation sees the number, not its name. -/
theorem trunc32_congr {c : Config} {r r' : NumVal} (h : c.num.val r = c.num.val r') : trunc32 c r = trunc32 c r' :=
  truncatesTo_unique (truncatesTo_trunc32 c r) (by rw [h]; exact truncatesTo_trunc32 c r')

/-- CPSTOINC (R70). -/
theorem cpsToIncOf_val (c : Config) (ls : BitVec 5) (T : NumVal) :
    c.num.val (cpsToIncOf c ls T) = (tableSize ls : ℝ) * 2 ^ c.F * c.num.val T := by
  simp [cpsToIncOf]

/-- RADTOINC (R70). -/
theorem radToIncOf_val (c : Config) (ls : BitVec 5) :
    c.num.val (radToIncOf c ls) = (tableSize ls : ℝ) * 2 ^ c.F / c.num.val c.U := by
  rw [radToIncOf, c.div_val _ c.U_pos.ne']
  simp

/-- The sign of a coefficient (R78). -/
theorem coefSign_eq (c : Config) (k : NumVal) :
    (0 < c.num.val k ∧ coefSign c k = .positive) ∨ (c.num.val k < 0 ∧ coefSign c k = .negative) ∨
      (c.num.val k = 0 ∧ coefSign c k = .zero) := by
  unfold coefSign
  rcases lt_trichotomy (c.num.val k) 0 with h | h | h
  · have h1 : c.num.pos k ≠ true := by rw [Ne, c.num.pos_iff]; exact h.le.not_gt
    right; left
    exact ⟨h, by rw [if_neg h1, if_pos ((c.num.neg_iff k).2 h)]⟩
  · have h1 : c.num.pos k ≠ true := by rw [Ne, c.num.pos_iff, h]; exact lt_irrefl 0
    have h2 : c.num.neg k ≠ true := by rw [Ne, c.num.neg_iff, h]; exact lt_irrefl 0
    right; right
    exact ⟨h, by rw [if_neg h1, if_neg h2]⟩
  · left
    exact ⟨h, by rw [if_pos ((c.num.pos_iff k).2 h)]⟩

/-- The feedback term (R78), in its three cases. -/
theorem feedback_val (c : Config) (prev k : NumVal) :
    (0 < c.num.val k ∧ c.num.val (feedback c prev k) = c.num.val prev * c.num.val k) ∨
      (c.num.val k < 0 ∧ c.num.val (feedback c prev k) = c.num.val prev ^ 2 * c.num.val k) ∨
      (c.num.val k = 0 ∧ c.num.val (feedback c prev k) = 0) := by
  unfold feedback
  rcases coefSign_eq c k with ⟨h, e⟩ | ⟨h, e⟩ | ⟨h, e⟩
  · exact .inl ⟨h, by rw [e]; simp⟩
  · exact .inr (.inl ⟨h, by rw [e]; simp only [NumSystem.mul_val]; ring⟩)
  · exact .inr (.inr ⟨h, by rw [e]; simp⟩)

/-- No feedback without a coefficient (R78). -/
theorem feedback_zero_right {c : Config} (prev : NumVal) {k : NumVal} (h : c.num.val k = 0) :
    feedback c prev k = c.real 0 := by
  unfold feedback
  rcases coefSign_eq c k with ⟨g, e⟩ | ⟨g, e⟩ | ⟨g, e⟩
  · exact absurd h g.ne'
  · exact absurd h g.ne
  · rw [e]

/-- The feedback term of a silent output (R78, last example). -/
theorem feedback_zero_left {c : Config} {prev : NumVal} (k : NumVal) (h : c.num.val prev = 0) :
    c.num.val (feedback c prev k) = 0 := by
  rcases feedback_val c prev k with ⟨-, e⟩ | ⟨-, e⟩ | ⟨-, e⟩ <;> simp [e, h]

/-- The select input of the slope multiplexer (R81, R89). -/
theorem scalarUnchanged_iff (c : Config) (new prev : NumVal) :
    scalarUnchanged c new prev = true ↔ c.num.val new = c.num.val prev := c.num.eq_iff new prev

/-- The interpolation (R85). -/
@[simp] theorem interpolate_val (c : Config) (t0 t1 frac : NumVal) :
    c.num.val (interpolate c t0 t1 frac) = c.num.val t0 + c.num.val frac * (c.num.val t1 - c.num.val t0) := by
  simp [interpolate]

/-- The fraction is the position modulo `2^F`, over `2^F` (R84). -/
theorem lookupFrac_val (c : Config) (pos : Word) :
    c.num.val (lookupFrac c pos) = ((pos.toNat % 2 ^ c.F : Nat) : ℝ) / 2 ^ c.F := by
  have h1 : 2 ^ c.F ≤ 2 ^ 32 := Nat.pow_le_pow_right (by decide) (Nat.lt_succ_iff.1 c.fracBits.isLt)
  have h0 : 0 < 2 ^ c.F := Nat.two_pow_pos _
  have hd : c.num.val (c.real (2 ^ c.F)) ≠ 0 := by rw [Config.real_val]; positivity
  rw [lookupFrac, c.div_val _ hd, Config.real_val, Config.real_val, BitVec.toNat_and, BitVec.toNat_ofNat,
    Nat.mod_eq_of_lt (a := 2 ^ c.F - 1) (by omega), Nat.and_two_pow_sub_one_eq_mod]
  push_cast
  rfl

end Machine

end Sys2Proof
end

