-- ==== Sys2Proof/Laws/State.lean ====
section
/-! SUPPORT. What each update of the state does to each field: one lemma per field and update, so that no proof unfolds
an update. -/

namespace Sys2Proof.Machine

/-! ### withOut -/

@[simp] theorem State.withOut_phase (s : State) (m : Memory) : (s.withOut m).phase = s.phase := rfl
@[simp] theorem State.withOut_prevOut (s : State) (m : Memory) : (s.withOut m).prevOut = s.prevOut := rfl
@[simp] theorem State.withOut_prevFreq (s : State) (m : Memory) : (s.withOut m).prevFreq = s.prevFreq := rfl
@[simp] theorem State.withOut_prevPhase (s : State) (m : Memory) : (s.withOut m).prevPhase = s.prevPhase := rfl
@[simp] theorem State.withOut_cpsToInc (s : State) (m : Memory) : (s.withOut m).cpsToInc = s.cpsToInc := rfl
@[simp] theorem State.withOut_radToInc (s : State) (m : Memory) : (s.withOut m).radToInc = s.radToInc := rfl
@[simp] theorem State.withOut_loMask (s : State) (m : Memory) : (s.withOut m).loMask = s.loMask := rfl
@[simp] theorem State.withOut_variant (s : State) (m : Memory) : (s.withOut m).variant = s.variant := rfl
@[simp] theorem State.withOut_ls (s : State) (m : Memory) : (s.withOut m).ls = s.ls := rfl
@[simp] theorem State.withOut_tabRef (s : State) (m : Memory) : (s.withOut m).tabRef = s.tabRef := rfl
@[simp] theorem State.withOut_valid (s : State) (m : Memory) : (s.withOut m).valid = s.valid := rfl
@[simp] theorem State.withOut_tab (s : State) (m : Memory) : (s.withOut m).tab = s.tab := rfl
@[simp] theorem State.withOut_fin (s : State) (m : Memory) : (s.withOut m).fin = s.fin := rfl
@[simp] theorem State.withOut_pin (s : State) (m : Memory) : (s.withOut m).pin = s.pin := rfl
@[simp] theorem State.withOut_bin (s : State) (m : Memory) : (s.withOut m).bin = s.bin := rfl
@[simp] theorem State.withOut_cfg (s : State) (m : Memory) : (s.withOut m).cfg = s.cfg := rfl
@[simp] theorem State.withOut_out (s : State) (m : Memory) : (s.withOut m).out = m := rfl
@[simp] theorem State.withOut_host (s : State) (m : Memory) : (s.withOut m).host = s.host := rfl
@[simp] theorem State.withOut_tabMutated (s : State) (m : Memory) : (s.withOut m).tabMutated = s.tabMutated := rfl
@[simp] theorem State.withOut_unsetDraws (s : State) (m : Memory) : (s.withOut m).unsetDraws = s.unsetDraws := rfl

/-! ### withSample -/

@[simp] theorem State.withSample_phase (s : State) (p : Word) (y : NumVal) : (s.withSample p y).phase = p := rfl
@[simp] theorem State.withSample_prevOut (s : State) (p : Word) (y : NumVal) : (s.withSample p y).prevOut = y := rfl
@[simp] theorem State.withSample_prevFreq (s : State) (p : Word) (y : NumVal) : (s.withSample p y).prevFreq = s.prevFreq := rfl
@[simp] theorem State.withSample_prevPhase (s : State) (p : Word) (y : NumVal) : (s.withSample p y).prevPhase = s.prevPhase := rfl
@[simp] theorem State.withSample_cpsToInc (s : State) (p : Word) (y : NumVal) : (s.withSample p y).cpsToInc = s.cpsToInc := rfl
@[simp] theorem State.withSample_radToInc (s : State) (p : Word) (y : NumVal) : (s.withSample p y).radToInc = s.radToInc := rfl
@[simp] theorem State.withSample_loMask (s : State) (p : Word) (y : NumVal) : (s.withSample p y).loMask = s.loMask := rfl
@[simp] theorem State.withSample_variant (s : State) (p : Word) (y : NumVal) : (s.withSample p y).variant = s.variant := rfl
@[simp] theorem State.withSample_ls (s : State) (p : Word) (y : NumVal) : (s.withSample p y).ls = s.ls := rfl
@[simp] theorem State.withSample_tabRef (s : State) (p : Word) (y : NumVal) : (s.withSample p y).tabRef = s.tabRef := rfl
@[simp] theorem State.withSample_valid (s : State) (p : Word) (y : NumVal) : (s.withSample p y).valid = s.valid := rfl
@[simp] theorem State.withSample_tab (s : State) (p : Word) (y : NumVal) : (s.withSample p y).tab = s.tab := rfl
@[simp] theorem State.withSample_fin (s : State) (p : Word) (y : NumVal) : (s.withSample p y).fin = s.fin := rfl
@[simp] theorem State.withSample_pin (s : State) (p : Word) (y : NumVal) : (s.withSample p y).pin = s.pin := rfl
@[simp] theorem State.withSample_bin (s : State) (p : Word) (y : NumVal) : (s.withSample p y).bin = s.bin := rfl
@[simp] theorem State.withSample_cfg (s : State) (p : Word) (y : NumVal) : (s.withSample p y).cfg = s.cfg := rfl
@[simp] theorem State.withSample_out (s : State) (p : Word) (y : NumVal) : (s.withSample p y).out = s.out := rfl
@[simp] theorem State.withSample_host (s : State) (p : Word) (y : NumVal) : (s.withSample p y).host = s.host := rfl
@[simp] theorem State.withSample_tabMutated (s : State) (p : Word) (y : NumVal) : (s.withSample p y).tabMutated = s.tabMutated := rfl
@[simp] theorem State.withSample_unsetDraws (s : State) (p : Word) (y : NumVal) : (s.withSample p y).unsetDraws = s.unsetDraws := rfl

/-! ### latchFreq -/

@[simp] theorem State.latchFreq_phase (s : State) (f : NumVal) : (s.latchFreq f).phase = s.phase := rfl
@[simp] theorem State.latchFreq_prevOut (s : State) (f : NumVal) : (s.latchFreq f).prevOut = s.prevOut := rfl
@[simp] theorem State.latchFreq_prevFreq (s : State) (f : NumVal) : (s.latchFreq f).prevFreq = f := rfl
@[simp] theorem State.latchFreq_prevPhase (s : State) (f : NumVal) : (s.latchFreq f).prevPhase = s.prevPhase := rfl
@[simp] theorem State.latchFreq_cpsToInc (s : State) (f : NumVal) : (s.latchFreq f).cpsToInc = s.cpsToInc := rfl
@[simp] theorem State.latchFreq_radToInc (s : State) (f : NumVal) : (s.latchFreq f).radToInc = s.radToInc := rfl
@[simp] theorem State.latchFreq_loMask (s : State) (f : NumVal) : (s.latchFreq f).loMask = s.loMask := rfl
@[simp] theorem State.latchFreq_variant (s : State) (f : NumVal) : (s.latchFreq f).variant = s.variant := rfl
@[simp] theorem State.latchFreq_ls (s : State) (f : NumVal) : (s.latchFreq f).ls = s.ls := rfl
@[simp] theorem State.latchFreq_tabRef (s : State) (f : NumVal) : (s.latchFreq f).tabRef = s.tabRef := rfl
@[simp] theorem State.latchFreq_valid (s : State) (f : NumVal) : (s.latchFreq f).valid = s.valid := rfl
@[simp] theorem State.latchFreq_tab (s : State) (f : NumVal) : (s.latchFreq f).tab = s.tab := rfl
@[simp] theorem State.latchFreq_fin (s : State) (f : NumVal) : (s.latchFreq f).fin = s.fin := rfl
@[simp] theorem State.latchFreq_pin (s : State) (f : NumVal) : (s.latchFreq f).pin = s.pin := rfl
@[simp] theorem State.latchFreq_bin (s : State) (f : NumVal) : (s.latchFreq f).bin = s.bin := rfl
@[simp] theorem State.latchFreq_cfg (s : State) (f : NumVal) : (s.latchFreq f).cfg = s.cfg := rfl
@[simp] theorem State.latchFreq_out (s : State) (f : NumVal) : (s.latchFreq f).out = s.out := rfl
@[simp] theorem State.latchFreq_host (s : State) (f : NumVal) : (s.latchFreq f).host = s.host := rfl
@[simp] theorem State.latchFreq_tabMutated (s : State) (f : NumVal) : (s.latchFreq f).tabMutated = s.tabMutated := rfl
@[simp] theorem State.latchFreq_unsetDraws (s : State) (f : NumVal) : (s.latchFreq f).unsetDraws = s.unsetDraws := rfl

/-! ### latchPhase -/

@[simp] theorem State.latchPhase_phase (s : State) (p : NumVal) : (s.latchPhase p).phase = s.phase := rfl
@[simp] theorem State.latchPhase_prevOut (s : State) (p : NumVal) : (s.latchPhase p).prevOut = s.prevOut := rfl
@[simp] theorem State.latchPhase_prevFreq (s : State) (p : NumVal) : (s.latchPhase p).prevFreq = s.prevFreq := rfl
@[simp] theorem State.latchPhase_prevPhase (s : State) (p : NumVal) : (s.latchPhase p).prevPhase = p := rfl
@[simp] theorem State.latchPhase_cpsToInc (s : State) (p : NumVal) : (s.latchPhase p).cpsToInc = s.cpsToInc := rfl
@[simp] theorem State.latchPhase_radToInc (s : State) (p : NumVal) : (s.latchPhase p).radToInc = s.radToInc := rfl
@[simp] theorem State.latchPhase_loMask (s : State) (p : NumVal) : (s.latchPhase p).loMask = s.loMask := rfl
@[simp] theorem State.latchPhase_variant (s : State) (p : NumVal) : (s.latchPhase p).variant = s.variant := rfl
@[simp] theorem State.latchPhase_ls (s : State) (p : NumVal) : (s.latchPhase p).ls = s.ls := rfl
@[simp] theorem State.latchPhase_tabRef (s : State) (p : NumVal) : (s.latchPhase p).tabRef = s.tabRef := rfl
@[simp] theorem State.latchPhase_valid (s : State) (p : NumVal) : (s.latchPhase p).valid = s.valid := rfl
@[simp] theorem State.latchPhase_tab (s : State) (p : NumVal) : (s.latchPhase p).tab = s.tab := rfl
@[simp] theorem State.latchPhase_fin (s : State) (p : NumVal) : (s.latchPhase p).fin = s.fin := rfl
@[simp] theorem State.latchPhase_pin (s : State) (p : NumVal) : (s.latchPhase p).pin = s.pin := rfl
@[simp] theorem State.latchPhase_bin (s : State) (p : NumVal) : (s.latchPhase p).bin = s.bin := rfl
@[simp] theorem State.latchPhase_cfg (s : State) (p : NumVal) : (s.latchPhase p).cfg = s.cfg := rfl
@[simp] theorem State.latchPhase_out (s : State) (p : NumVal) : (s.latchPhase p).out = s.out := rfl
@[simp] theorem State.latchPhase_host (s : State) (p : NumVal) : (s.latchPhase p).host = s.host := rfl
@[simp] theorem State.latchPhase_tabMutated (s : State) (p : NumVal) : (s.latchPhase p).tabMutated = s.tabMutated := rfl
@[simp] theorem State.latchPhase_unsetDraws (s : State) (p : NumVal) : (s.latchPhase p).unsetDraws = s.unsetDraws := rfl

/-! ### withHost -/

@[simp] theorem State.withHost_phase (s : State) (h : List HostAct) : (s.withHost h).phase = s.phase := rfl
@[simp] theorem State.withHost_prevOut (s : State) (h : List HostAct) : (s.withHost h).prevOut = s.prevOut := rfl
@[simp] theorem State.withHost_prevFreq (s : State) (h : List HostAct) : (s.withHost h).prevFreq = s.prevFreq := rfl
@[simp] theorem State.withHost_prevPhase (s : State) (h : List HostAct) : (s.withHost h).prevPhase = s.prevPhase := rfl
@[simp] theorem State.withHost_cpsToInc (s : State) (h : List HostAct) : (s.withHost h).cpsToInc = s.cpsToInc := rfl
@[simp] theorem State.withHost_radToInc (s : State) (h : List HostAct) : (s.withHost h).radToInc = s.radToInc := rfl
@[simp] theorem State.withHost_loMask (s : State) (h : List HostAct) : (s.withHost h).loMask = s.loMask := rfl
@[simp] theorem State.withHost_variant (s : State) (h : List HostAct) : (s.withHost h).variant = s.variant := rfl
@[simp] theorem State.withHost_ls (s : State) (h : List HostAct) : (s.withHost h).ls = s.ls := rfl
@[simp] theorem State.withHost_tabRef (s : State) (h : List HostAct) : (s.withHost h).tabRef = s.tabRef := rfl
@[simp] theorem State.withHost_valid (s : State) (h : List HostAct) : (s.withHost h).valid = s.valid := rfl
@[simp] theorem State.withHost_tab (s : State) (h : List HostAct) : (s.withHost h).tab = s.tab := rfl
@[simp] theorem State.withHost_fin (s : State) (h : List HostAct) : (s.withHost h).fin = s.fin := rfl
@[simp] theorem State.withHost_pin (s : State) (h : List HostAct) : (s.withHost h).pin = s.pin := rfl
@[simp] theorem State.withHost_bin (s : State) (h : List HostAct) : (s.withHost h).bin = s.bin := rfl
@[simp] theorem State.withHost_cfg (s : State) (h : List HostAct) : (s.withHost h).cfg = s.cfg := rfl
@[simp] theorem State.withHost_out (s : State) (h : List HostAct) : (s.withHost h).out = s.out := rfl
@[simp] theorem State.withHost_host (s : State) (h : List HostAct) : (s.withHost h).host = h := rfl
@[simp] theorem State.withHost_tabMutated (s : State) (h : List HostAct) : (s.withHost h).tabMutated = s.tabMutated := rfl
@[simp] theorem State.withHost_unsetDraws (s : State) (h : List HostAct) : (s.withHost h).unsetDraws = s.unsetDraws := rfl

/-! ### unset -/

@[simp] theorem State.unset_phase (s : State) : (s.unset).phase = Config.unsetPhase (s.unsetDraws + 1) := rfl
@[simp] theorem State.unset_prevOut (s : State) : (s.unset).prevOut = Config.unsetPrevOut (s.unsetDraws + 1) := rfl
@[simp] theorem State.unset_prevFreq (s : State) : (s.unset).prevFreq = Config.unsetPrevFreq (s.unsetDraws + 1) := rfl
@[simp] theorem State.unset_prevPhase (s : State) : (s.unset).prevPhase = Config.unsetPrevPhase (s.unsetDraws + 1) := rfl
@[simp] theorem State.unset_cpsToInc (s : State) : (s.unset).cpsToInc = Config.unsetCpsToInc (s.unsetDraws + 1) := rfl
@[simp] theorem State.unset_radToInc (s : State) : (s.unset).radToInc = Config.unsetRadToInc (s.unsetDraws + 1) := rfl
@[simp] theorem State.unset_loMask (s : State) : (s.unset).loMask = Config.unsetLoMask (s.unsetDraws + 1) := rfl
@[simp] theorem State.unset_variant (s : State) : (s.unset).variant = Config.unsetVariant (s.unsetDraws + 1) := rfl
@[simp] theorem State.unset_ls (s : State) : (s.unset).ls = Config.unsetLs (s.unsetDraws + 1) := rfl
@[simp] theorem State.unset_tabRef (s : State) : (s.unset).tabRef = s.tabRef := rfl
@[simp] theorem State.unset_valid (s : State) : (s.unset).valid = false := rfl
@[simp] theorem State.unset_tab (s : State) : (s.unset).tab = s.tab := rfl
@[simp] theorem State.unset_fin (s : State) : (s.unset).fin = s.fin := rfl
@[simp] theorem State.unset_pin (s : State) : (s.unset).pin = s.pin := rfl
@[simp] theorem State.unset_bin (s : State) : (s.unset).bin = s.bin := rfl
@[simp] theorem State.unset_cfg (s : State) : (s.unset).cfg = s.cfg := rfl
@[simp] theorem State.unset_out (s : State) : (s.unset).out = s.out := rfl
@[simp] theorem State.unset_host (s : State) : (s.unset).host = s.host := rfl
@[simp] theorem State.unset_tabMutated (s : State) : (s.unset).tabMutated = s.tabMutated := rfl
@[simp] theorem State.unset_unsetDraws (s : State) : (s.unset).unsetDraws = s.unsetDraws + 1 := rfl

/-! ### constructed -/

@[simp] theorem State.constructed_phase (s : State) (c : Config) (v : Variant) (l : BitVec 5) (T f p : NumVal) : (State.constructed c v l T f p s).phase = 0#32 := rfl
@[simp] theorem State.constructed_prevOut (s : State) (c : Config) (v : Variant) (l : BitVec 5) (T f p : NumVal) : (State.constructed c v l T f p s).prevOut = c.real 0 := rfl
@[simp] theorem State.constructed_prevFreq (s : State) (c : Config) (v : Variant) (l : BitVec 5) (T f p : NumVal) : (State.constructed c v l T f p s).prevFreq = f := rfl
@[simp] theorem State.constructed_prevPhase (s : State) (c : Config) (v : Variant) (l : BitVec 5) (T f p : NumVal) : (State.constructed c v l T f p s).prevPhase = p := rfl
@[simp] theorem State.constructed_cpsToInc (s : State) (c : Config) (v : Variant) (l : BitVec 5) (T f p : NumVal) : (State.constructed c v l T f p s).cpsToInc = cpsToIncOf c l T := rfl
@[simp] theorem State.constructed_radToInc (s : State) (c : Config) (v : Variant) (l : BitVec 5) (T f p : NumVal) : (State.constructed c v l T f p s).radToInc = radToIncOf c l := rfl
@[simp] theorem State.constructed_loMask (s : State) (c : Config) (v : Variant) (l : BitVec 5) (T f p : NumVal) : (State.constructed c v l T f p s).loMask = loMaskOf l := rfl
@[simp] theorem State.constructed_variant (s : State) (c : Config) (v : Variant) (l : BitVec 5) (T f p : NumVal) : (State.constructed c v l T f p s).variant = v := rfl
@[simp] theorem State.constructed_ls (s : State) (c : Config) (v : Variant) (l : BitVec 5) (T f p : NumVal) : (State.constructed c v l T f p s).ls = l := rfl
@[simp] theorem State.constructed_tabRef (s : State) (c : Config) (v : Variant) (l : BitVec 5) (T f p : NumVal) : (State.constructed c v l T f p s).tabRef = .tab := rfl
@[simp] theorem State.constructed_valid (s : State) (c : Config) (v : Variant) (l : BitVec 5) (T f p : NumVal) : (State.constructed c v l T f p s).valid = true := rfl
@[simp] theorem State.constructed_tab (s : State) (c : Config) (v : Variant) (l : BitVec 5) (T f p : NumVal) : (State.constructed c v l T f p s).tab = s.tab := rfl
@[simp] theorem State.constructed_fin (s : State) (c : Config) (v : Variant) (l : BitVec 5) (T f p : NumVal) : (State.constructed c v l T f p s).fin = s.fin := rfl
@[simp] theorem State.constructed_pin (s : State) (c : Config) (v : Variant) (l : BitVec 5) (T f p : NumVal) : (State.constructed c v l T f p s).pin = s.pin := rfl
@[simp] theorem State.constructed_bin (s : State) (c : Config) (v : Variant) (l : BitVec 5) (T f p : NumVal) : (State.constructed c v l T f p s).bin = s.bin := rfl
@[simp] theorem State.constructed_cfg (s : State) (c : Config) (v : Variant) (l : BitVec 5) (T f p : NumVal) : (State.constructed c v l T f p s).cfg = s.cfg := rfl
@[simp] theorem State.constructed_out (s : State) (c : Config) (v : Variant) (l : BitVec 5) (T f p : NumVal) : (State.constructed c v l T f p s).out = s.out := rfl
@[simp] theorem State.constructed_host (s : State) (c : Config) (v : Variant) (l : BitVec 5) (T f p : NumVal) : (State.constructed c v l T f p s).host = s.host := rfl
@[simp] theorem State.constructed_tabMutated (s : State) (c : Config) (v : Variant) (l : BitVec 5) (T f p : NumVal) : (State.constructed c v l T f p s).tabMutated = s.tabMutated := rfl
@[simp] theorem State.constructed_unsetDraws (s : State) (c : Config) (v : Variant) (l : BitVec 5) (T f p : NumVal) : (State.constructed c v l T f p s).unsetDraws = s.unsetDraws := rfl

/-! ### withSpace and hostWrites -/

@[simp] theorem State.withSpace_phase (s : State) (sp : Space) (m : Memory) : (s.withSpace sp m).phase = s.phase := by cases sp <;> rfl
@[simp] theorem State.withSpace_prevOut (s : State) (sp : Space) (m : Memory) : (s.withSpace sp m).prevOut = s.prevOut := by cases sp <;> rfl
@[simp] theorem State.withSpace_prevFreq (s : State) (sp : Space) (m : Memory) : (s.withSpace sp m).prevFreq = s.prevFreq := by cases sp <;> rfl
@[simp] theorem State.withSpace_prevPhase (s : State) (sp : Space) (m : Memory) : (s.withSpace sp m).prevPhase = s.prevPhase := by cases sp <;> rfl
@[simp] theorem State.withSpace_cpsToInc (s : State) (sp : Space) (m : Memory) : (s.withSpace sp m).cpsToInc = s.cpsToInc := by cases sp <;> rfl
@[simp] theorem State.withSpace_radToInc (s : State) (sp : Space) (m : Memory) : (s.withSpace sp m).radToInc = s.radToInc := by cases sp <;> rfl
@[simp] theorem State.withSpace_loMask (s : State) (sp : Space) (m : Memory) : (s.withSpace sp m).loMask = s.loMask := by cases sp <;> rfl
@[simp] theorem State.withSpace_variant (s : State) (sp : Space) (m : Memory) : (s.withSpace sp m).variant = s.variant := by cases sp <;> rfl
@[simp] theorem State.withSpace_ls (s : State) (sp : Space) (m : Memory) : (s.withSpace sp m).ls = s.ls := by cases sp <;> rfl
@[simp] theorem State.withSpace_tabRef (s : State) (sp : Space) (m : Memory) : (s.withSpace sp m).tabRef = s.tabRef := by cases sp <;> rfl
@[simp] theorem State.withSpace_valid (s : State) (sp : Space) (m : Memory) : (s.withSpace sp m).valid = s.valid := by cases sp <;> rfl
@[simp] theorem State.withSpace_host (s : State) (sp : Space) (m : Memory) : (s.withSpace sp m).host = s.host := by cases sp <;> rfl
@[simp] theorem State.withSpace_tabMutated (s : State) (sp : Space) (m : Memory) : (s.withSpace sp m).tabMutated = s.tabMutated := by cases sp <;> rfl
@[simp] theorem State.withSpace_unsetDraws (s : State) (sp : Space) (m : Memory) : (s.withSpace sp m).unsetDraws = s.unsetDraws := by cases sp <;> rfl
@[simp] theorem State.hostWrites_phase (s : State) (sp : Space) (m : Memory) : (s.hostWrites sp m).phase = s.phase := by cases sp <;> rfl
@[simp] theorem State.hostWrites_prevOut (s : State) (sp : Space) (m : Memory) : (s.hostWrites sp m).prevOut = s.prevOut := by cases sp <;> rfl
@[simp] theorem State.hostWrites_prevFreq (s : State) (sp : Space) (m : Memory) : (s.hostWrites sp m).prevFreq = s.prevFreq := by cases sp <;> rfl
@[simp] theorem State.hostWrites_prevPhase (s : State) (sp : Space) (m : Memory) : (s.hostWrites sp m).prevPhase = s.prevPhase := by cases sp <;> rfl
@[simp] theorem State.hostWrites_cpsToInc (s : State) (sp : Space) (m : Memory) : (s.hostWrites sp m).cpsToInc = s.cpsToInc := by cases sp <;> rfl
@[simp] theorem State.hostWrites_radToInc (s : State) (sp : Space) (m : Memory) : (s.hostWrites sp m).radToInc = s.radToInc := by cases sp <;> rfl
@[simp] theorem State.hostWrites_loMask (s : State) (sp : Space) (m : Memory) : (s.hostWrites sp m).loMask = s.loMask := by cases sp <;> rfl
@[simp] theorem State.hostWrites_variant (s : State) (sp : Space) (m : Memory) : (s.hostWrites sp m).variant = s.variant := by cases sp <;> rfl
@[simp] theorem State.hostWrites_ls (s : State) (sp : Space) (m : Memory) : (s.hostWrites sp m).ls = s.ls := by cases sp <;> rfl
@[simp] theorem State.hostWrites_tabRef (s : State) (sp : Space) (m : Memory) : (s.hostWrites sp m).tabRef = s.tabRef := by cases sp <;> rfl
@[simp] theorem State.hostWrites_valid (s : State) (sp : Space) (m : Memory) : (s.hostWrites sp m).valid = s.valid := by cases sp <;> rfl
@[simp] theorem State.hostWrites_host (s : State) (sp : Space) (m : Memory) : (s.hostWrites sp m).host = s.host := by cases sp <;> rfl
@[simp] theorem State.hostWrites_tabMutated (s : State) (sp : Space) (m : Memory) :
    (s.hostWrites sp m).tabMutated = (s.tabMutated || (s.valid && sp == .tab)) := rfl
@[simp] theorem State.hostWrites_unsetDraws (s : State) (sp : Space) (m : Memory) : (s.hostWrites sp m).unsetDraws = s.unsetDraws := by cases sp <;> rfl

@[simp] theorem State.withSpace_space_same (s : State) (sp : Space) (m : Memory) : (s.withSpace sp m).space sp = m := by
  cases sp <;> rfl

theorem State.withSpace_space_other (s : State) {sp q : Space} (m : Memory) (h : q ≠ sp) :
    (s.withSpace sp m).space q = s.space q := by
  cases sp <;> cases q <;> first | rfl | exact absurd rfl h

@[simp] theorem State.hostWrites_space (s : State) (sp q : Space) (m : Memory) :
    (s.hostWrites sp m).space q = (s.withSpace sp m).space q := by
  cases q <;> rfl

@[simp] theorem State.space_tab (s : State) : s.space .tab = s.tab := rfl
@[simp] theorem State.space_fin (s : State) : s.space .fin = s.fin := rfl
@[simp] theorem State.space_pin (s : State) : s.space .pin = s.pin := rfl
@[simp] theorem State.space_bin (s : State) : s.space .bin = s.bin := rfl
@[simp] theorem State.space_cfg (s : State) : s.space .cfg = s.cfg := rfl
@[simp] theorem State.space_out (s : State) : s.space .out = s.out := rfl

end Sys2Proof.Machine
end

