-- ==== Sys2Proof/Laws/Datapath.lean ====
section
/-! SUPPORT. What the shared datapath does: one lemma per operation that says everything it can do, and when it answers. -/

namespace Sys2Proof.Machine

/-! ### Reads and the output port -/

theorem readTab_eq (s : State) (k : Nat) : readTab s k = Memory.read s.tab k := by
  unfold readTab; cases s.tabRef; rfl

theorem writeOut_eq_some {s t : State} {k : Nat} {v : NumVal} :
    writeOut s k v = some t ↔ (∃ w, Memory.read s.out k = some w) ∧ t = s.withOut (Memory.write s.out k v) := by
  unfold writeOut
  split_ifs with h
  · rw [Option.isSome_iff_exists] at h
    exact ⟨fun e => ⟨h, (Option.some.inj e).symm⟩, fun e => by rw [e.2]⟩
  · rw [Option.isSome_iff_exists] at h
    simp [h]

/-! ### Lookup -/

theorem loMaskOf_toNat (ls : BitVec 5) : (loMaskOf ls).toNat = tableSize ls - 1 := by
  have h : tableSize ls ≤ 2 ^ 31 := Nat.pow_le_pow_right (by decide) (by have := ls.isLt; omega)
  have h0 : 0 < tableSize ls := Nat.two_pow_pos _
  unfold loMaskOf
  rw [BitVec.toNat_ofNat, Nat.mod_eq_of_lt (by omega)]

theorem and_loMaskOf_lt (w : Word) (ls : BitVec 5) : (w &&& loMaskOf ls).toNat < tableSize ls := by
  have h0 : 0 < tableSize ls := Nat.two_pow_pos _
  rw [BitVec.toNat_and, loMaskOf_toNat, tableSize, Nat.and_two_pow_sub_one_eq_mod]
  exact Nat.mod_lt _ (Nat.two_pow_pos _)

/-- The index is the position divided by `2^F`, modulo the table length (R84). -/
theorem lookupIndex_toNat (c : Config) (ls : BitVec 5) (pos : Word) :
    (lookupIndex c (loMaskOf ls) pos).toNat = pos.toNat / 2 ^ c.F % 2 ^ ls.toNat := by
  unfold lookupIndex
  rw [BitVec.toNat_and, loMaskOf_toNat, tableSize, Nat.and_two_pow_sub_one_eq_mod, BitVec.toNat_ushiftRight,
    Nat.shiftRight_eq_div_pow]

/-- The second index is the next one, modulo the table length (R85). -/
theorem lookupNext_toNat (c : Config) (ls : BitVec 5) (pos : Word) :
    (lookupNext c (loMaskOf ls) pos).toNat = (pos.toNat / 2 ^ c.F + 1) % 2 ^ ls.toNat := by
  have h1 : 2 ^ ls.toNat ≤ 2 ^ 31 := Nat.pow_le_pow_right (by decide) (by have := ls.isLt; omega)
  have h2 : pos.toNat / 2 ^ c.F % 2 ^ ls.toNat < 2 ^ ls.toNat := Nat.mod_lt _ (Nat.two_pow_pos _)
  unfold lookupNext
  rw [BitVec.toNat_and, loMaskOf_toNat, tableSize, Nat.and_two_pow_sub_one_eq_mod, BitVec.toNat_add, lookupIndex_toNat,
    Nat.mod_eq_of_lt (a := _ + _) (by simp; omega)]
  simp [Nat.add_mod]

/-- LOOKUP reads two elements of TAB and nothing else. -/
theorem lookup_eq_some {c : Config} {s : State} {pos : Word} {y : NumVal} :
    lookup c s pos = some y ↔
      ∃ t0 t1, Memory.read s.tab (lookupIndex c s.loMask pos).toNat = some t0 ∧
        Memory.read s.tab (lookupNext c s.loMask pos).toNat = some t1 ∧ y = interpolate c t0 t1 (lookupFrac c pos) := by
  simp only [lookup, readTab_eq, Option.bind_eq_some_iff, Option.map_eq_some_iff]
  constructor
  · rintro ⟨t0, h0, t1, h1, rfl⟩; exact ⟨t0, t1, h0, h1, rfl⟩
  · rintro ⟨t0, t1, h0, h1, rfl⟩; exact ⟨t0, h0, t1, h1, rfl⟩

theorem lookup_congr (c : Config) {s t : State} (pos : Word) (h1 : t.tab = s.tab) (h2 : t.loMask = s.loMask) :
    lookup c t pos = lookup c s pos := by
  simp only [lookup, readTab_eq, h1, h2]

@[simp] theorem lookup_withSample (c : Config) (s : State) (p : Word) (y : NumVal) (pos : Word) :
    lookup c (s.withSample p y) pos = lookup c s pos := rfl

@[simp] theorem lookup_withOut (c : Config) (s : State) (m : Memory) (pos : Word) :
    lookup c (s.withOut m) pos = lookup c s pos := rfl

/-- With the table's own mask and a whole table, a lookup always answers (R86). -/
theorem lookup_total (c : Config) {s : State} (pos : Word) (hm : s.loMask = loMaskOf s.ls)
    (ht : Memory.supplies s.tab (tableSize s.ls) = true) : ∃ y, lookup c s pos = some y := by
  rw [Memory.supplies_iff] at ht
  obtain ⟨t0, h0⟩ := ht (lookupIndex c s.loMask pos).toNat (by rw [hm]; exact and_loMaskOf_lt _ _)
  obtain ⟨t1, h1⟩ := ht (lookupNext c s.loMask pos).toNat (by rw [hm]; exact and_loMaskOf_lt _ _)
  exact ⟨_, lookup_eq_some.2 ⟨t0, t1, h0, h1, rfl⟩⟩

/-! ### The inputs -/

theorem rampSetup_same {c : Config} {new prev : NumVal} (K : NumVal) (N : Nat) (h : c.num.val new = c.num.val prev) :
    rampSetup c new prev K N = (c.num.mul K new, c.real 0) := by
  rw [rampSetup, if_pos ((scalarUnchanged_iff c new prev).2 h)]

theorem rampSetup_changed {c : Config} {new prev : NumVal} (K : NumVal) (N : Nat) (h : c.num.val new ≠ c.num.val prev) :
    rampSetup c new prev K N =
      (c.num.mul K prev, c.num.div (c.num.mul K (c.num.sub new prev)) (c.real N)) := by
  rw [rampSetup, if_neg (by rw [scalarUnchanged_iff]; exact h)]

/-- RAMP_SETUP (R81): in both cases the running value starts at the latched scalar and the slope is the difference over
the block length. -/
theorem rampSetup_val (c : Config) (new prev K : NumVal) {N : Nat} (hN : 1 ≤ N) :
    c.num.val (rampSetup c new prev K N).1 = c.num.val K * c.num.val prev ∧
      c.num.val (rampSetup c new prev K N).2 = c.num.val K * (c.num.val new - c.num.val prev) / N := by
  have hN' : c.num.val (c.real N) ≠ 0 := by rw [Config.real_val]; exact_mod_cast (by omega : N ≠ 0)
  by_cases h : c.num.val new = c.num.val prev
  · simp [rampSetup_same K N h, h]
  · rw [rampSetup_changed K N h]
    simp only [NumSystem.mul_val, c.div_val _ hN', NumSystem.sub_val, Config.real_val, and_self]

@[simp] theorem Source.stepped_perSample (c : Config) : Source.stepped c .perSample = .perSample := rfl

@[simp] theorem Source.stepped_perBlock (c : Config) (new run slope : NumVal) :
    Source.stepped c (.perBlock new run slope) = .perBlock new (c.num.add run slope) slope := rfl

@[simp] theorem Source.select_perSample (c : Config) (K : NumVal) (x : Option NumVal) :
    Source.select c .perSample K x = x.map fun v => c.num.mul K v := rfl

@[simp] theorem Source.select_perBlock (c : Config) (new run slope K : NumVal) (x : Option NumVal) :
    Source.select c (.perBlock new run slope) K x = some run := rfl

@[simp] theorem Source.iterate_perSample (c : Config) (j : Nat) : (Source.stepped c)^[j] .perSample = .perSample := by
  induction j with
  | zero => rfl
  | succ j ih => rw [Function.iterate_succ_apply', ih]; rfl

/-- The running value after `j` samples (R82). -/
theorem Source.iterate_perBlock (c : Config) (new run slope : NumVal) (j : Nat) :
    ∃ run', (Source.stepped c)^[j] (.perBlock new run slope) = .perBlock new run' slope ∧
      c.num.val run' = c.num.val run + j * c.num.val slope := by
  induction j with
  | zero => exact ⟨run, rfl, by simp⟩
  | succ j ih =>
    obtain ⟨run', h1, h2⟩ := ih
    refine ⟨c.num.add run' slope, by rw [Function.iterate_succ_apply', h1]; rfl, ?_⟩
    rw [NumSystem.add_val, h2]
    push_cast
    ring

/-- A per-block input in sample `j` of a block (R81, R82): on the straight line from the latched to the new scalar. -/
theorem Source.select_ramp (c : Config) (new prev K : NumVal) {N : Nat} (j : Nat) (x : Option NumVal) (hN : 1 ≤ N) :
    ∃ y, ((Source.stepped c)^[j] (Source.ofScalar c new prev K N)).select c K x = some y ∧
      c.num.val y = c.num.val K * c.num.val prev + j * (c.num.val K * (c.num.val new - c.num.val prev) / N) := by
  obtain ⟨h1, h2⟩ := rampSetup_val c new prev K hN
  obtain ⟨y, e, hy⟩ := Source.iterate_perBlock c new (rampSetup c new prev K N).1 (rampSetup c new prev K N).2 j
  exact ⟨y, by rw [Source.ofScalar, e]; rfl, by rw [hy, h1, h2]⟩

@[simp] theorem Block.stepped_k (c : Config) (b : Block) : (b.stepped c).k = b.k := rfl

theorem Block.iterate (c : Config) (b : Block) (j : Nat) :
    (Block.stepped c)^[j] b =
      { k := b.k, freq := (Source.stepped c)^[j] b.freq, offs := (Source.stepped c)^[j] b.offs } := by
  induction j with
  | zero => rfl
  | succ j ih => simp only [Function.iterate_succ_apply', ih]; rfl

@[simp] theorem fmux_withSample (c : Config) (b : Block) (s : State) (p : Word) (y : NumVal) (i : Nat) :
    fmux c b (s.withSample p y) i = fmux c b s i := rfl

@[simp] theorem fmux_withOut (c : Config) (b : Block) (s : State) (m : Memory) (i : Nat) : fmux c b (s.withOut m) i = fmux c b s i := rfl

@[simp] theorem pmux_withSample (c : Config) (b : Block) (s : State) (p : Word) (y : NumVal) (i : Nat) :
    pmux c b (s.withSample p y) i = pmux c b s i := rfl

@[simp] theorem pmux_withOut (c : Config) (b : Block) (s : State) (m : Memory) (i : Nat) : pmux c b (s.withOut m) i = pmux c b s i := rfl

/-! ### One sample -/

/-- Everything one sample can do (R92). -/
theorem sample_eq_some {c : Config} {emit : Bool} {i : Nat} {b b' : Block} {s t : State} :
    sample c emit i b s = some (b', t) ↔
      ∃ finc pinc y, fmux c b s i = some finc ∧ pmux c b s i = some pinc ∧
        lookup c s (add32 (add32 s.phase (trunc32 c finc)) (phaseOffset c pinc s.radToInc (feedback c s.prevOut b.k)))
          = some y ∧
        b' = b.stepped c ∧
        (if emit then writeOut (s.withSample (add32 s.phase (trunc32 c finc)) y) i y
          else some (s.withSample (add32 s.phase (trunc32 c finc)) y)) = some t := by
  simp only [sample, Option.bind_eq_some_iff, Option.map_eq_some_iff, Prod.mk.injEq]
  constructor
  · rintro ⟨finc, h1, pinc, h2, y, h3, u, h4, rfl, rfl⟩
    exact ⟨finc, pinc, y, h1, h2, h3, rfl, h4⟩
  · rintro ⟨finc, pinc, y, h1, h2, h3, rfl, h4⟩
    exact ⟨finc, h1, pinc, h2, y, h3, t, h4, rfl, rfl⟩

/-! ### The loop -/

theorem samples_zero (c : Config) (emit : Bool) (i : Nat) (b : Block) (s : State) :
    samples c emit 0 i b s = some (b, s) := rfl

theorem samples_succ (c : Config) (emit : Bool) (m i : Nat) (b : Block) (s : State) :
    samples c emit (m + 1) i b s = (sample c emit i b s).bind fun p => samples c emit m (i + 1) p.1 p.2 := rfl

/-- The accumulator values `P` and outputs `Y` of `m` samples from sample `i` on, before each of them. -/
def LoopTrace (c : Config) (s : State) (b : Block) (i m : Nat) (P : Nat → Word) (Y : Nat → NumVal) : Prop :=
  P 0 = s.phase ∧ Y 0 = s.prevOut ∧
    ∀ j, j < m → ∃ finc pinc, fmux c ((Block.stepped c)^[j] b) s (i + j) = some finc ∧
      pmux c ((Block.stepped c)^[j] b) s (i + j) = some pinc ∧ P (j + 1) = add32 (P j) (trunc32 c finc) ∧
      lookup c s (add32 (P (j + 1)) (phaseOffset c pinc s.radToInc (feedback c (Y j) b.k))) = some (Y (j + 1))

/-- Everything the loop can do: the state changes in PHASE, PREVOUT and OUT only, by the recurrences of `LoopTrace`. -/
theorem samples_next {c : Config} {emit : Bool} {m i : Nat} {b b' : Block} {s t : State}
    (h : samples c emit m i b s = some (b', t)) :
    b' = (Block.stepped c)^[m] b ∧ ∃ P Y, LoopTrace c s b i m P Y ∧ t = (s.withSample (P m) (Y m)).withOut t.out ∧
      (emit = false → t.out = s.out) ∧
      (emit = true → (∀ j, j < m → Memory.read t.out (i + j) = some (Y (j + 1))) ∧
        ∀ j, j < i ∨ i + m ≤ j → Memory.read t.out j = Memory.read s.out j) ∧
      (Memory.wf s.out = true → Memory.wf t.out = true) := by
  induction m generalizing i b s with
  | zero =>
    simp only [samples_zero, Option.some.injEq, Prod.mk.injEq] at h
    obtain ⟨rfl, rfl⟩ := h
    exact ⟨rfl, fun _ => s.phase, fun _ => s.prevOut, ⟨rfl, rfl, fun j hj => absurd hj (Nat.not_lt_zero j)⟩, rfl,
      fun _ => rfl, fun _ => ⟨fun j hj => absurd hj (Nat.not_lt_zero j), fun _ _ => rfl⟩, id⟩
  | succ m ih =>
    rw [samples_succ, Option.bind_eq_some_iff] at h
    obtain ⟨⟨b1, s1⟩, h1, h2⟩ := h
    obtain ⟨finc, pinc, y, hf, hp, hl, rfl, hw⟩ := sample_eq_some.1 h1
    obtain ⟨hb, P, Y, ⟨hP, hY, hT⟩, ht, hsil, hout, hwf⟩ := ih h2
    have hs1 : s1 = (s.withSample (add32 s.phase (trunc32 c finc)) y).withOut s1.out := by
      cases emit
      · simp only [Bool.false_eq_true, if_false, Option.some.injEq] at hw; rw [← hw]; rfl
      · simp only [if_true] at hw; obtain ⟨-, hw⟩ := writeOut_eq_some.1 hw; rw [hw]; rfl
    refine ⟨by rw [hb, ← Function.iterate_succ_apply], fun j => if j = 0 then s.phase else P (j - 1),
      fun j => if j = 0 then s.prevOut else Y (j - 1), ⟨rfl, rfl, ?_⟩, ?_, ?_, ?_, ?_⟩
    · intro j hj
      cases j with
      | zero =>
        refine ⟨finc, pinc, hf, hp, ?_, ?_⟩
        · simp only [Nat.zero_add, one_ne_zero, if_false, Nat.sub_self, if_true, hP]; rw [hs1]; rfl
        · have e1 : P 0 = add32 s.phase (trunc32 c finc) := by rw [hP, hs1]; rfl
          have e2 : Y 0 = y := by rw [hY, hs1]; rfl
          simpa [e1, e2] using hl
      | succ j =>
        obtain ⟨f', p', g1, g2, g3, g4⟩ := hT j (by omega)
        rw [hs1] at g1 g2 g4
        refine ⟨f', p', ?_, ?_, ?_, ?_⟩
        · rw [Function.iterate_succ_apply, show i + (j + 1) = i + 1 + j by omega]; simpa using g1
        · rw [Function.iterate_succ_apply, show i + (j + 1) = i + 1 + j by omega]; simpa using g2
        · simpa using g3
        · simpa using g4
    · have : m + 1 ≠ 0 := by omega
      simp only [this, if_false, Nat.add_sub_cancel]
      rw [ht]
      simp only [State.withOut_out]
      rw [hs1]; rfl
    · intro he
      rw [hsil he]
      subst he
      simp only [Bool.false_eq_true, if_false, Option.some.injEq] at hw
      rw [← hw]; rfl
    · intro he
      subst he
      simp only [if_true] at hw
      obtain ⟨-, hw⟩ := writeOut_eq_some.1 hw
      obtain ⟨o1, o2⟩ := hout rfl
      have hso : ∀ j, Memory.read s1.out j = if j = i then some y else Memory.read s.out j := by
        intro j; rw [hw]; simp [Memory.read_write]
      refine ⟨fun j hj => ?_, fun j hj => ?_⟩
      · cases j with
        | zero =>
          have e2 : Y 0 = y := by rw [hY, hs1]; rfl
          have := o2 i (Or.inl (Nat.lt_succ_self i))
          rw [hso, if_pos rfl] at this
          simpa [e2] using this
        | succ j =>
          have := o1 j (by omega)
          simpa [show i + (j + 1) = i + 1 + j by omega] using this
      · rw [o2 j (by omega), hso, if_neg (by omega)]
    · intro hs
      apply hwf
      cases emit
      · simp only [Bool.false_eq_true, if_false, Option.some.injEq] at hw
        rw [← hw]; exact hs
      · simp only [if_true] at hw
        obtain ⟨-, hw⟩ := writeOut_eq_some.1 hw
        rw [hw]; exact Memory.wf_write _ _ hs

/-- When the loop answers: every input element is supplied, every lookup answers and OUT has room. -/
theorem samples_total {c : Config} {emit : Bool} {m i : Nat} {b : Block} {s : State}
    (hf : ∀ j, j < m → ∃ x, fmux c ((Block.stepped c)^[j] b) s (i + j) = some x)
    (hp : ∀ j, j < m → ∃ x, pmux c ((Block.stepped c)^[j] b) s (i + j) = some x)
    (hl : ∀ pos, ∃ y, lookup c s pos = some y)
    (ho : emit = true → ∀ j, j < m → ∃ v, Memory.read s.out (i + j) = some v) :
    ∃ p, samples c emit m i b s = some p := by
  induction m generalizing i b s with
  | zero => exact ⟨_, rfl⟩
  | succ m ih =>
    obtain ⟨finc, h1⟩ := hf 0 (by omega)
    obtain ⟨pinc, h2⟩ := hp 0 (by omega)
    obtain ⟨y, h3⟩ :=
      hl (add32 (add32 s.phase (trunc32 c finc)) (phaseOffset c pinc s.radToInc (feedback c s.prevOut b.k)))
    have hs1 : ∃ s1 o, sample c emit i b s = some (b.stepped c, s1) ∧
        s1 = (s.withSample (add32 s.phase (trunc32 c finc)) y).withOut o ∧
        ∀ j v, Memory.read s.out j = some v → ∃ v, Memory.read o j = some v := by
      cases emit
      · exact ⟨_, s.out, sample_eq_some.2 ⟨finc, pinc, y, h1, h2, h3, rfl, rfl⟩, rfl, fun j v h => ⟨v, h⟩⟩
      · obtain ⟨v, hv⟩ := ho rfl 0 (by omega)
        refine ⟨_, Memory.write s.out i y, sample_eq_some.2 ⟨finc, pinc, y, h1, h2, h3, rfl, ?_⟩, rfl, ?_⟩
        · simp only [if_true]
          exact writeOut_eq_some.2 ⟨⟨v, hv⟩, rfl⟩
        · intro j w hw
          rw [Memory.read_write]
          split_ifs
          · exact ⟨y, rfl⟩
          · exact ⟨w, hw⟩
    obtain ⟨s1, o, e1, e2, e3⟩ := hs1
    rw [samples_succ, e1]
    simp only [Option.bind_some]
    apply ih
    · intro j hj
      obtain ⟨x, hx⟩ := hf (j + 1) (by omega)
      rw [Function.iterate_succ_apply] at hx
      exact ⟨x, by rw [e2]; simpa [show i + (j + 1) = i + 1 + j by omega] using hx⟩
    · intro j hj
      obtain ⟨x, hx⟩ := hp (j + 1) (by omega)
      rw [Function.iterate_succ_apply] at hx
      exact ⟨x, by rw [e2]; simpa [show i + (j + 1) = i + 1 + j by omega] using hx⟩
    · intro pos; rw [e2]; simpa using hl pos
    · intro he j hj
      obtain ⟨v, hv⟩ := ho he (j + 1) (by omega)
      rw [show i + (j + 1) = i + 1 + j by omega] at hv
      rw [e2]
      exact e3 _ _ hv

end Sys2Proof.Machine
end

