-- ==== Sys2Proof/Laws/Commands.lean ====
section
/-! SUPPORT. What the routine, the six commands, the host's acts and the step can do: one lemma each. -/

namespace Sys2Proof.Machine

/-! ### The routine -/

/-- The value a latch holds after a block: the new scalar of a per-block input, else the old value (R90). -/
def Source.latched (src : Source) (old : NumVal) : NumVal :=
  match src with
  | .perSample => old
  | .perBlock new _ _ => new

@[simp] theorem Source.latched_perSample (old : NumVal) : Source.perSample.latched old = old := rfl

@[simp] theorem Source.latched_perBlock (new run slope old : NumVal) : (Source.perBlock new run slope).latched old = new := rfl

@[simp] theorem Source.latched_ofScalar (c : Config) (new prev K : NumVal) (N : Nat) (old : NumVal) :
    (Source.ofScalar c new prev K N).latched old = new := rfl

theorem Source.latched_iterate (c : Config) (src : Source) (j : Nat) (old : NumVal) :
    ((Source.stepped c)^[j] src).latched old = src.latched old := by
  cases src with
  | perSample => simp
  | perBlock new run slope =>
    obtain ⟨run', h, -⟩ := Source.iterate_perBlock c new run slope j
    rw [h]; rfl

theorem epilogue_eq (b : Block) (s : State) :
    epilogue b s = (s.latchFreq (b.freq.latched s.prevFreq)).latchPhase (b.offs.latched s.prevPhase) := by
  obtain ⟨k, freq, offs⟩ := b
  cases freq <;> cases offs <;> rfl

theorem sourceOf_eq_some {c : Config} {pb : Bool} {x : Option NumVal} {prev K : NumVal} {n : Nat} {src : Source} :
    sourceOf c pb x prev K n = some src ↔
      (pb = false ∧ src = .perSample) ∨ (pb = true ∧ ∃ new, x = some new ∧ src = Source.ofScalar c new prev K n) := by
  cases pb
  · simp [sourceOf, eq_comm]
  · simp [sourceOf, eq_comm]

/-- Everything the prologue can do. -/
theorem prologue_eq_some {c : Config} {v : Variant} {n : Nat} {s : State} {b : Block} :
    prologue c v n s = some b ↔
      readBin s 0 = some b.k ∧ sourceOf c v.fk (readFin s 0) s.prevFreq s.cpsToInc n = some b.freq ∧
        sourceOf c v.pk (readPin s 0) s.prevPhase s.radToInc n = some b.offs := by
  simp only [prologue, Option.bind_eq_some_iff, Option.map_eq_some_iff]
  constructor
  · rintro ⟨k, h1, f, h2, p, h3, rfl⟩; exact ⟨h1, h2, h3⟩
  · rintro ⟨h1, h2, h3⟩; exact ⟨_, h1, _, h2, _, h3, rfl⟩

/-- Everything the routine can do: PHASE, PREVOUT, the latches and OUT change, nothing else. -/
theorem routine_next {c : Config} {v : Variant} {emit : Bool} {n : Nat} {s t : State}
    (h : routine c v emit n s = some t) :
    ∃ b P Y, prologue c v n s = some b ∧ LoopTrace c s b 0 n P Y ∧
      t = (((s.withSample (P n) (Y n)).withOut t.out).latchFreq (b.freq.latched s.prevFreq)).latchPhase
        (b.offs.latched s.prevPhase) ∧
      (emit = false → t.out = s.out) ∧
      (emit = true → (∀ j, j < n → Memory.read t.out j = some (Y (j + 1))) ∧
        ∀ j, n ≤ j → Memory.read t.out j = Memory.read s.out j) ∧
      (Memory.wf s.out = true → Memory.wf t.out = true) := by
  simp only [routine, Option.bind_eq_some_iff, Option.map_eq_some_iff] at h
  obtain ⟨b, hb, ⟨b', u⟩, hu, rfl⟩ := h
  obtain ⟨rfl, P, Y, hT, hu', h1, h2, h3⟩ := samples_next hu
  have ho : (epilogue ((Block.stepped c)^[n] b) u).out = u.out := by rw [epilogue_eq]; rfl
  refine ⟨b, P, Y, hb, hT, ?_, ?_, ?_, ?_⟩
  · rw [ho, epilogue_eq, Block.iterate]
    simp only [Source.latched_iterate]
    rw [hu']
    rfl
  · rw [ho]; exact h1
  · rw [ho]
    intro he
    obtain ⟨g1, g2⟩ := h2 he
    exact ⟨fun j hj => by simpa using g1 j hj, fun j hj => g2 j (Or.inr (by omega))⟩
  · rw [ho]; exact h3

/-- When the routine answers. -/
theorem routine_total {c : Config} {v : Variant} {emit : Bool} {n : Nat} {s : State}
    (hk : ∃ k, readBin s 0 = some k)
    (hf : if v.fk then ∃ x, readFin s 0 = some x else ∀ i, i < n → ∃ x, readFin s i = some x)
    (hp : if v.pk then ∃ x, readPin s 0 = some x else ∀ i, i < n → ∃ x, readPin s i = some x)
    (hl : ∀ pos, ∃ y, lookup c s pos = some y)
    (ho : emit = true → ∀ i, i < n → ∃ x, Memory.read s.out i = some x) :
    ∃ t, routine c v emit n s = some t := by
  have src : ∀ (pb : Bool) (rd : Nat → Option NumVal) (prev K : NumVal),
      (if pb then ∃ x, rd 0 = some x else ∀ i, i < n → ∃ x, rd i = some x) →
      ∃ q, sourceOf c pb (rd 0) prev K n = some q ∧
        ∀ j, j < n → ∃ x, ((Source.stepped c)^[j] q).select c K (rd j) = some x := by
    intro pb rd prev K h
    cases pb
    · simp only [Bool.false_eq_true, if_false] at h
      refine ⟨.perSample, rfl, fun j hj => ?_⟩
      obtain ⟨x, hx⟩ := h j hj
      exact ⟨c.num.mul K x, by simp [hx]⟩
    · simp only [if_true] at h
      obtain ⟨x, hx⟩ := h
      refine ⟨Source.ofScalar c x prev K n, by simp [sourceOf, hx], fun j _ => ?_⟩
      obtain ⟨run', h, -⟩ := Source.iterate_perBlock c x (rampSetup c x prev K n).1 (rampSetup c x prev K n).2 j
      rw [Source.ofScalar, h]
      exact ⟨_, rfl⟩
  obtain ⟨k, hk⟩ := hk
  obtain ⟨fq, f1, f2⟩ := src v.fk (readFin s) s.prevFreq s.cpsToInc hf
  obtain ⟨pq, p1, p2⟩ := src v.pk (readPin s) s.prevPhase s.radToInc hp
  have hb : prologue c v n s = some { k := k, freq := fq, offs := pq } := prologue_eq_some.2 ⟨hk, f1, p1⟩
  obtain ⟨⟨b', u⟩, hu⟩ := samples_total (c := c) (emit := emit) (m := n) (i := 0)
    (b := { k := k, freq := fq, offs := pq }) (s := s)
    (fun j hj => by rw [Block.iterate, Nat.zero_add]; exact f2 j hj)
    (fun j hj => by rw [Block.iterate, Nat.zero_add]; exact p2 j hj) hl
    (fun he j hj => by rw [Nat.zero_add]; exact ho he j hj)
  exact ⟨epilogue b' u, by simp [routine, hb, hu]⟩

/-! ### The commands -/

/-- Everything a GEN command can do, and when. -/
theorem generate_next {c : Config} {var : Variant} {n : BitVec 26} {s t : State} :
    generate c var n s = .next t ↔
      n ≠ 0#26 ∧ s.tabMutated = false ∧ s.valid = true ∧ s.variant = var ∧ genSupplied var n.toNat s = true ∧
        routine c var true n.toNat s = some t := by
  unfold generate
  by_cases h0 : n = 0#26
  · simp [h0]
  by_cases h1 : s.tabMutated = true
  · simp [h0, h1]
  by_cases h2 : s.valid = true
  swap
  · simp [h0, h1, h2]
  by_cases h3 : var = s.variant
  swap
  · simp [h0, h1, h2, h3, Ne.symm h3]
  subst h3
  by_cases h4 : genSupplied s.variant n.toNat s = true
  swap
  · simp [h0, h1, h2, h4]
  cases h5 : routine c s.variant true n.toNat s <;> simp [h0, h1, h2, h4]

/-- Everything CONSTRUCT can do, and when. -/
theorem construct_next {c : Config} {var : Variant} {ls : BitVec 5} {s t : State} :
    construct c var ls s = .next t ↔
      s.tabMutated = false ∧ ls.toNat + c.F ≤ 32 ∧ constructSupplied ls s = true ∧
        ∃ T f0 p0, readCfg s 0 = some T ∧ c.num.pos T = true ∧ readFin s 0 = some f0 ∧ readPin s 0 = some p0 ∧
          warmup c (s.constructed c var ls T f0 p0) = some t := by
  unfold construct
  by_cases h1 : s.tabMutated = true
  · simp [h1]
  by_cases h2 : 32 < ls.toNat + c.F
  · simp [h1, h2, not_le.2 h2]
  cases h3 : readCfg s 0 with
  | none => simp [h1, h2]
  | some T =>
    by_cases h4 : c.num.pos T = true
    swap
    · simp [h1, h2, h4]
    by_cases h5 : constructSupplied ls s = true
    swap
    · simp [h1, h2, h4, h5]
    cases h6 : readFin s 0 with
    | none => simp [h1, h2, h4, h5]
    | some f0 =>
      cases h7 : readPin s 0 with
      | none => simp [h1, h2, h4, h5]
      | some p0 =>
        cases h8 : warmup c (s.constructed c var ls T f0 p0) with
        | none => simp [h1, h2, h4, h5, h8]
        | some u => simp [h1, h2, h4, h5, h8, not_lt.1 h2]

/-- Everything RELEASE can do, and when. -/
theorem releaseInstance_next {s t : State} :
    releaseInstance s = .next t ↔ s.tabMutated = false ∧ s.valid = true ∧ t = s.unset := by
  unfold releaseInstance
  by_cases h1 : s.tabMutated = true
  · simp [h1]
  by_cases h2 : s.valid = true
  · simp [h1, h2, eq_comm]
  · simp [h1, h2]

/-! ### The port and the step -/

theorem receive_ok {w : Word} {i : Instr} (s : State) (h : decode w = .ok i) : receive w s = exec i s := by
  simp [receive, h]

theorem receive_error {w : Word} {r : ReservedWord} (s : State) (h : decode w = .error r) :
    receive w s = .refused (.reserved r) := by
  simp [receive, h]

/-- Everything a step can do when it answers a next state. -/
theorem step_next {s t : State} (h : step s = .next t) :
    (s.host = [] ∧ t = s) ∨
    (∃ w rest i, s.host = .command w :: rest ∧ decode w = .ok i ∧ exec i (s.withHost rest) = .next t) ∨
    (∃ sp xs rest, s.host = .place sp xs :: rest ∧ t = (s.withHost rest).hostWrites sp (Memory.ofList xs)) ∨
    (∃ sp k v rest, s.host = .poke sp k v :: rest ∧
      t = (s.withHost rest).hostWrites sp (Memory.write (s.space sp) k v)) := by
  unfold step at h
  cases hh : s.host with
  | nil => simp only [hh, Host.Outcome.next.injEq] at h; exact Or.inl ⟨rfl, h.symm⟩
  | cons a rest =>
    simp only [hh] at h
    cases a with
    | command w =>
      simp only [perform] at h
      cases hd : decode w with
      | ok i => rw [receive_ok _ hd] at h; exact Or.inr (Or.inl ⟨w, rest, i, rfl, hd, h⟩)
      | error r => rw [receive_error _ hd] at h; cases h
    | commandEarly w => simp [perform] at h
    | place sp xs =>
      simp only [perform, Host.Outcome.next.injEq] at h
      exact Or.inr (Or.inr (Or.inl ⟨sp, xs, rest, rfl, h.symm⟩))
    | poke sp k v =>
      simp only [perform, Host.Outcome.next.injEq] at h
      refine Or.inr (Or.inr (Or.inr ⟨sp, k, v, rest, rfl, ?_⟩))
      rw [← h]
      cases sp <;> rfl

/-! ### Runs -/

theorem core_run_zero (s : State) : Host.Core.run Sys2Proof.core 0 s = .next s := rfl

/-- A run goes on from the next state of its first step. -/
theorem core_run_next {s t : State} (m : Nat) (h : step s = .next t) :
    Host.Core.run Sys2Proof.core (m + 1) s = Host.Core.run Sys2Proof.core m t := by
  have h' : Sys2Proof.core.step s = .next t := h
  simp only [Host.Core.run, h']

/-- A run ends at the first refusal (R109). -/
theorem core_run_refused {s : State} {r : Refusal} (m : Nat) (h : step s = .refused r) :
    Host.Core.run Sys2Proof.core (m + 1) s = .refused r := by
  have h' : Sys2Proof.core.step s = .refused r := h
  simp only [Host.Core.run, h']

end Sys2Proof.Machine
end

