-- ==== Sys2Proof/Laws/PerInstr.lean ====
section
/-! SUPPORT. Families of statements about every command as syntax. -/

namespace Sys2Proof.Laws

/-- The word of a command matches the mask and value of its own table row (R67). -/
def InRow.Statement (i : Instr) : Prop := encode i &&& i.rowMask = i.rowValue

theorem InRow.construct (v : Variant) (l : BitVec 5) : InRow.Statement (.construct v l) := by
  unfold InRow.Statement
  revert l
  cases v <;> decide +kernel

/-- Masking away the low 26 bits of a GEN word leaves the selecting bits. -/
theorem and_genMask (a : BitVec 6) (n : BitVec 26) : (a ++ n) &&& 0xFC000000#32 = a ++ 0#26 := by
  ext i hi
  simp only [BitVec.getElem_and, BitVec.getElem_append]
  split_ifs with h
  · interval_cases i <;> simp
  · interval_cases i <;> simp at h ⊢

theorem InRow.genAA (n : BitVec 26) : InRow.Statement (.genAA n) := and_genMask (2#4 ++ 0#2) n

theorem InRow.genAK (n : BitVec 26) : InRow.Statement (.genAK n) := and_genMask (2#4 ++ 1#2) n

theorem InRow.genKA (n : BitVec 26) : InRow.Statement (.genKA n) := and_genMask (2#4 ++ 2#2) n

theorem InRow.genKK (n : BitVec 26) : InRow.Statement (.genKK n) := and_genMask (2#4 ++ 3#2) n

theorem InRow.release : InRow.Statement .release := by unfold InRow.Statement; decide

end Sys2Proof.Laws
end

