-- ==== Sys2Proof/Tests/Slice0.lean ====
section
/-! SUPPORT. The model's own tests. Expected values are the spec's: 30_encoding R67, 95_test_vectors, the worked examples
of the rules. -/

namespace Sys2Proof.Tests

open Sys2Proof.Machine

/-! ### Well-formedness -/

theorem test_wellFormed_refuses_empty_genAA : (Instr.genAA 0#26).wellFormed = false := by decide
theorem test_wellFormed_refuses_empty_genAK : (Instr.genAK 0#26).wellFormed = false := by decide
theorem test_wellFormed_refuses_empty_genKA : (Instr.genKA 0#26).wellFormed = false := by decide
theorem test_wellFormed_refuses_empty_genKK : (Instr.genKK 0#26).wellFormed = false := by decide

/-! ### Decoding: the words of R67 and of 95_test_vectors section 2.8 -/

theorem test_decode_construct_aa : decode 0x10400000#32 = .ok (.construct .aa 2#5) := by decide
theorem test_decode_construct_ak : decode 0x14400000#32 = .ok (.construct .ak 2#5) := by decide
theorem test_decode_construct_ka : decode 0x18400000#32 = .ok (.construct .ka 2#5) := by decide
theorem test_decode_construct_kk : decode 0x1DA00000#32 = .ok (.construct .kk 13#5) := by decide
theorem test_decode_construct_largest : decode 0x13E00000#32 = .ok (.construct .aa 31#5) := by decide
theorem test_decode_genAA : decode 0x20000004#32 = .ok (.genAA 4#26) := by decide
theorem test_decode_genAK : decode 0x24000004#32 = .ok (.genAK 4#26) := by decide
theorem test_decode_genKA : decode 0x28000004#32 = .ok (.genKA 4#26) := by decide
theorem test_decode_genKK : decode 0x2C000040#32 = .ok (.genKK 64#26) := by decide
theorem test_decode_genKK_largest : decode 0x2FFFFFFF#32 = .ok (.genKK 67108863#26) := by decide
theorem test_decode_release : decode 0x30000000#32 = .ok .release := by decide
theorem test_decode_reserved_opcode_0 : decode 0x00000000#32 = .error .opcode := by decide
theorem test_decode_reserved_opcode_15 : decode 0xFFFFFFFF#32 = .error .opcode := by decide
theorem test_decode_construct_bit_20 : decode 0x10500000#32 = .error .zeroField := by decide
theorem test_decode_release_bit_26 : decode 0x34000000#32 = .error .zeroField := by decide
theorem test_decode_empty_block : decode 0x2C000000#32 = .error .emptyBlock := by decide
theorem test_encode_construct : encode (.construct .kk 3#5) = 0x1C600000#32 := by decide
theorem test_encode_genKA : encode (.genKA 4#26) = 0x28000004#32 := by decide
theorem test_asm_construct : (Instr.construct .kk 13#5).asm = "CONSTRUCT KK, 13" := by decide
theorem test_asm_gen : (Instr.genAK 67108863#26).asm = "GEN.AK 67108863" := by decide

/-! ### Configurations (95_test_vectors section 0) -/

/-- F = 16, U = 1: configuration X. -/
def cfgX : Config := { fracBits := 16, num := .rationals, U := .rat 1 }
/-- F = 16, U = 4: configuration W. -/
def cfgW : Config := { fracBits := 16, num := .rationals, U := .rat 4, U_pos := by simp }
/-- F = 4, U = 1: configuration Y. -/
def cfgY : Config := { fracBits := 4, num := .rationals, U := .rat 1 }

/-- Configuration Z (95_test_vectors section 0, 2.9): F = 16, U = 2π, LS = 13. There is such a configuration, and in each
RADTOINC is `2^28 / π`. -/
theorem test_configuration_Z :
    (∃ c : Config, c.F = 16 ∧ c.num.val c.U = 2 * Real.pi) ∧
      ∀ c : Config, c.F = 16 → c.num.val c.U = 2 * Real.pi → c.num.val (radToIncOf c 13#5) = 2 ^ 28 / Real.pi := by
  refine ⟨Laws.config_exists_recommended, fun c hF hU => ?_⟩
  rw [radToIncOf_val, hF, hU, show tableSize 13#5 = 2 ^ 13 from rfl]
  field_simp
  norm_num

/-! ### Arithmetic (95_test_vectors 2.1 to 2.7) -/

theorem test_trunc32_toward_zero :
    [3/2, -3/2, 999/1000, -1/2].map (fun q => trunc32 cfgX (.rat q)) = [1, -1, 0, 0] := by decide +kernel
theorem test_trunc32_wraps :
    [2^31 - 1/2, 2^31, -2^31 - 1/2, -2^31 - 1, 2^32 + 37/10, -2^32 - 5/2, 3 * 2^31 + 1/4].map
        (fun q => trunc32 cfgX (.rat q))
      = [0x7FFFFFFF, 0x80000000, 0x80000000, 0x7FFFFFFF, 3, -2, 0x80000000] := by decide +kernel
theorem test_add32_wraps : add32 0x7FFFC000#32 0x8000#32 = 0x80004000#32 := by decide
theorem test_feedback_cases :
    [(1/2, 1/2), (-1/2, 1/2), (1/2, -1), (-1/2, -1), (3/4, 0)].map
        (fun p : Rat × Rat => feedback cfgX (.rat p.1) (.rat p.2))
      = [1/4, -1/4, -1/4, -1/4, 0].map .rat := by decide +kernel
theorem test_rampSetup :
    [rampSetup cfgX (.rat 64) (.rat 64) (.rat 256) 4, rampSetup cfgX (.rat 0) (.rat 64) (.rat 256) 4,
        rampSetup cfgX (.rat 1) (.rat 0) (.rat 256) 3]
      = [(.rat 16384, .rat 0), (.rat 16384, .rat (-4096)), (.rat 0, .rat (256/3))] := by decide +kernel
/-- 2.7, rows 3 to 5: one truncation, of the sum. -/
theorem test_phaseOffset_truncates_once :
    [(-32768, -103041/524288), (1/2, 1/524288), (3/2, -3/1048576)].map
        (fun p : Rat × Rat => phaseOffset cfgX (.rat p.1) (.rat 262144) (.rat p.2)) = [-84288, 1, 0] := by decide +kernel

/-- Elements that are rational numbers. -/
def rats (xs : List Rat) : List NumVal := xs.map .rat

/-- The contents of a space, as index and rational. -/
def space (xs : List (Nat × Rat)) : Memory := xs.map fun p => (p.1, .rat p.2)

/-- Power-on, with the spaces filled by the host. -/
def placed (tab cfg fin pin bin : List Rat) (room : Nat) : State :=
  { State.reset with
    tab := Memory.ofList (rats tab), cfg := Memory.ofList (rats cfg), fin := Memory.ofList (rats fin)
    pin := Memory.ofList (rats pin), bin := Memory.ofList (rats bin)
    out := Memory.ofList (rats (List.replicate room 0)) }

/-- Configuration X's table and period. -/
def placedX (fin pin bin : List Rat) (room : Nat) : State := placed [0, 1, 0, -1] [1/1024] fin pin bin room

/-- An instance of configuration X: the registers given, the constants as 95_test_vectors section 0 lists them. -/
def instX (v : Variant) (phase : Word) (prevOut prevFreq prevPhase : Rat) (fin pin bin : List Rat) (room : Nat) :
    State :=
  { placedX fin pin bin room with
    phase, prevOut := .rat prevOut, prevFreq := .rat prevFreq, prevPhase := .rat prevPhase, cpsToInc := .rat 256
    radToInc := .rat 262144, loMask := 3, variant := v, ls := 2, valid := true }

/-- The data registers and OUT of a next state. -/
structure Seen where
  phase : Word
  prevOut : NumVal
  prevFreq : NumVal
  prevPhase : NumVal
  out : Memory
  deriving DecidableEq

/-- The data registers and OUT of a next state. -/
def seen : Host.Outcome State Fault Refusal → Option Seen
  | .next t => some ⟨t.phase, t.prevOut, t.prevFreq, t.prevPhase, t.out⟩
  | _ => none

/-- Data registers and OUT, the numbers rational. -/
def data (phase : Word) (prevOut prevFreq prevPhase : Rat) (out : List (Nat × Rat)) : Option Seen :=
  some ⟨phase, .rat prevOut, .rat prevFreq, .rat prevPhase, space out⟩

/-- The control registers of a next state. -/
structure Constants where
  cpsToInc : NumVal
  radToInc : NumVal
  loMask : Word
  variant : Variant
  ls : BitVec 5
  valid : Bool
  deriving DecidableEq

/-- The control registers of a next state. -/
def constants : Host.Outcome State Fault Refusal → Option Constants
  | .next t => some ⟨t.cpsToInc, t.radToInc, t.loMask, t.variant, t.ls, t.valid⟩
  | _ => none

/-- The reason of a refusal. -/
def why : Host.Outcome State Fault Refusal → Option Refusal
  | .refused r => some r
  | _ => none

/-! ### LOOKUP (2.5) -/

theorem test_lookup_X :
    [0x4000#32, 0x10000#32, 0x38000#32, 0xFFFFFFFF#32, 0x80014000#32].map
        (lookup cfgX (instX .kk 0 0 0 0 [] [] [] 0))
      = [1/4, 1, -1/2, -1/65536, 3/4].map fun q => some (.rat q) := by decide +kernel

/-! ### CONSTRUCT (2.9) and RELEASE -/

theorem test_construct_X :
    seen (construct cfgX .ka 2#5 (placedX [64] [1/4] [0] 1)) = data 16384 (3/4) 64 (1/4) [(0, 0)] := by decide +kernel
theorem test_construct_W_constants :
    constants (construct cfgW .kk 2#5 (placedX [64] [1] [0] 0)) = some ⟨.rat 256, .rat 65536, 3, .kk, 2, true⟩ := by decide +kernel
theorem test_release :
    (match execRelease (instX .kk 16384 (1/4) 64 0 [64] [0] [0] 1) with
      | .next t => some (t.valid, t.fin, t.out)
      | _ => none) = some (false, space [(0, 64)], space [(0, 0)]) := by decide +kernel

/-! ### The four GEN commands: programs P3, P4, P5, P2, P9 -/

theorem test_genAA_P3 :
    seen (generate cfgX .aa 4#26 (instX .aa 16384 (1/4) 64 0 [64, 64, 128, 0] [0, 1/8, 0, -1/8] [1/2] 5))
      = data 81920 (1/4) 64 0 [(0, 1), (1, -3/4), (2, -1/4), (3, 1/4), (4, 0)] := by decide +kernel
theorem test_genAA_P3b :
    seen (generate cfgX .aa 4#26 (instX .aa 16384 (1/4) 64 0 [64, 64, 128, 0] [0, 1/8, 0, -1/8] [-1/2] 4))
      = data 81920 (-37/1024) 64 0 [(0, 3/8), (1, 31/32), (2, -321/512), (3, -37/1024)] := by decide +kernel
theorem test_genAK_P4 :
    seen (generate cfgX .ak 4#26 (instX .ak 16384 (1/4) 64 0 [64, 64, 64, 64] [1/2] [-1] 4))
      = data 81920 (-3/4) 64 (1/2) [(0, 1/4), (1, 1), (2, 0), (3, -3/4)] := by decide +kernel
theorem test_genKA_P5 :
    seen (generate cfgX .ka 4#26 (instX .ka 16384 (3/4) 64 (1/4) [0] [1/4, 0, -1/4, 5/4] [0] 4))
      = data 57344 (1/8) 0 (1/4) [(0, 1/2), (1, 11/16), (2, -3/16), (3, 1/8)] := by decide +kernel
theorem test_genKK_P2 :
    seen (generate cfgX .kk 4#26 (instX .kk 16384 (1/4) 64 0 [128] [1/4] [0] 4))
      = data 106496 (-3/8) 128 (1/4) [(0, 1/2), (1, 15/16), (2, 5/16), (3, -3/8)] := by decide +kernel
theorem test_genKK_P9 :
    seen (generate cfgY .kk 4#26
        { placed [0, 2, 4, 2, 0, -2, -4, -2] [1/8] [1/2] [1/16] [1/4] 4 with
          phase := 8, prevOut := .rat 1, prevFreq := .rat (1/2), prevPhase := .rat 0, cpsToInc := .rat 16
          radToInc := .rat 128, loMask := 7, variant := .kk, ls := 3, valid := true })
      = data 40 (1/4) (1/2) (1/16) [(0, 2), (1, -13/4), (2, 1/2), (3, 1/4)] := by decide +kernel

/-! ### Refusals (2.10) -/

theorem test_gen_at_power_on : why (execGenKK 4#26 (placedX [64] [0] [0] 4)) = some .notConstructed := by decide
theorem test_release_at_power_on : why (execRelease State.reset) = some .notConstructed := by decide
theorem test_gen_shape : why (execGenAA 4#26 (instX .kk 0 0 0 0 [64] [0] [0] 4)) = some .shapeMismatch := by decide
theorem test_gen_short_fin :
    why (execGenAA 4#26 (instX .aa 0 0 0 0 [1, 1, 1] [0, 0, 0, 0] [0] 4)) = some .shortBuffer := by decide
theorem test_gen_short_out : why (execGenKK 4#26 (instX .kk 0 0 0 0 [64] [0] [0] 3)) = some .shortBuffer := by decide
theorem test_construct_bad_size :
    why (construct cfgX .kk 17#5 (placedX [64] [0] [0] 0)) = some .badTableSize := by decide +kernel
theorem test_construct_bad_period :
    why (construct cfgX .kk 2#5 (placed [0, 1, 0, -1] [0] [64] [0] [0] 0)) = some .badPeriod := by decide +kernel

/-! ### The step -/

theorem test_step_runs_the_word :
    why (step (State.reset.withFetchWord 32 0x2C000004)) = some .notConstructed := by decide
theorem test_step_reserved_word : why (step (State.reset.withFetchWord 32 0)) = some (.reserved .opcode) := by decide
theorem test_step_early_word :
    why (step { State.reset with host := [.commandEarly 0x2C000004] }) = some .concurrent := by decide
theorem test_step_table_write :
    (match step { instX .kk 0 0 0 0 [] [] [] 0 with host := [.poke .tab 1 (.rat 7)] } with
      | .next t => some (t.tab, t.tabMutated)
      | _ => none) = some (space [(0, 0), (1, 7), (2, 0), (3, -1)], true) := by decide +kernel

/-! ### Witnesses: states and operands that meet the hypotheses of the statements -/

open Sys2Proof.Safety

/-- A valid instance with a table of one entry: its fields fit every hardware configuration. -/
def wit (v : Variant) : State :=
  { placed [1] [1] [1] [1] [0] 1 with
    phase := 0, prevOut := .rat 1, prevFreq := .rat 1, prevPhase := .rat 1
    cpsToInc := cpsToIncOf Config.hw 0#5 (.rat 1), radToInc := radToIncOf Config.hw 0#5, loMask := 0, variant := v
    ls := 0, valid := true }

theorem hw_one_pos : 0 < Config.hw.num.val (.rat 1) := Config.hw.num.val_one_pos

theorem hw_zero : Config.hw.num.val (.rat 0) = 0 := by simp

theorem hw_fits : (0#5).toNat + Config.hw.F ≤ 32 := by
  have := Config.hw.fracBits.isLt
  simp [Config.F]; omega

theorem wit_fits (v : Variant) : tableFits (wit v) = true := by cases v <;> decide

theorem wit_lookup (v : Variant) (pos : Word) : ∃ y, lookup Config.hw (wit v) pos = some y :=
  lookup_total Config.hw pos rfl (by cases v <;> decide)

theorem wit_gen_completes (v : Variant) : ∃ t, exec (Instr.gen v 1#26) (wit v) = .next t := by
  have one : ∀ m : Memory, (∃ x, Memory.read m 0 = some x) → ∀ i, i < 1 → ∃ x, Memory.read m i = some x := by
    intro m h i hi
    obtain rfl : i = 0 := by omega
    exact h
  have tot : ∃ t, routine Config.hw v true 1 (wit v) = some t := by
    refine routine_total ⟨.rat 0, rfl⟩ ?_ ?_ (wit_lookup v) fun _ => one _ ⟨.rat 0, rfl⟩
    · split_ifs
      · exact ⟨.rat 1, rfl⟩
      · exact one _ ⟨.rat 1, rfl⟩
    · split_ifs
      · exact ⟨.rat 1, rfl⟩
      · exact one _ ⟨.rat 1, rfl⟩
  obtain ⟨t, ht⟩ := tot
  refine ⟨t, ?_⟩
  have hg : generate Config.hw v 1#26 (wit v) = .next t :=
    generate_next.2 ⟨by decide, rfl, rfl, rfl, by cases v <;> rfl, ht⟩
  cases v <;> exact hg

theorem wit_construct_completes : ∃ t, exec (.construct .aa 0#5) (wit .kk) = .next t := by
  have tot : ∃ t, warmup Config.hw ((wit .kk).constructed Config.hw .aa 0#5 (.rat 1) (.rat 1) (.rat 1)) = some t :=
    routine_total ⟨.rat 0, rfl⟩ ⟨.rat 1, rfl⟩ ⟨.rat 1, rfl⟩ (fun pos => lookup_total Config.hw pos rfl (by decide))
      (fun h => absurd h (by decide))
  obtain ⟨t, ht⟩ := tot
  exact ⟨t, construct_next.2 ⟨rfl, hw_fits, by decide, .rat 1, .rat 1, .rat 1, rfl, (Config.hw.num.pos_iff _).2 hw_one_pos,
    rfl, rfl, ht⟩⟩

theorem wit_within (v : Variant) (lo hi : ℝ) : TableWithin Config.hw (wit v) lo hi ↔ lo ≤ 1 ∧ 1 ≤ hi := by
  constructor
  · intro h
    simpa using h 0 (.rat 1) (by cases v <;> decide) rfl
  · intro h k x hk hx
    have : k = 0 := by
      have : k < 1 := by cases v <;> exact hk
      omega
    subst this
    have : x = .rat 1 := by
      have h1 : Memory.read (wit v).tab 0 = some (.rat 1) := rfl
      rw [h1] at hx
      exact (Option.some.inj hx).symm
    rw [this]
    simpa using h

theorem wit_inv (v : Variant) : Inv Config.hw (wit v) where
  canonical sp := by cases sp <;> cases v <;> decide
  fits _ := hw_fits
  mask _ := rfl
  scale _ := radToIncOf_val Config.hw 0#5
  period _ := ⟨Config.hw.num.val (.rat 1), hw_one_pos, cpsToIncOf_val Config.hw 0#5 (.rat 1)⟩
  table _ _ := by cases v <;> decide
  bounded _ _ lo hi h := by
    have e : Config.hw.num.val (wit v).prevOut = 1 := by simp [wit]
    rw [e]
    exact (wit_within v lo hi).1 h

theorem witness_DecodeOfEncodeIsTheCommand : (Instr.genAA 1#26).wellFormed = true := by decide
theorem witness_DecodedWordIsTheCommandsWord : decode 0x10000000#32 = .ok (.construct .aa 0#5) := by decide
theorem witness_FieldsAreReadAtTheirBits :
    decode 0x1FE00000#32 = .ok (.construct .kk 31#5) ∧ decode 0x27FFFFFF#32 = .ok (Instr.gen .ak 67108863#26) := by decide
theorem witness_EmptyBlockIsRefused :
    (0x2C000000#32).toNat / 2 ^ 28 = 2 ∧ (0x2C000000#32).toNat % 2 ^ 26 = 0 := by decide
theorem witness_ReservedOpcodeIsRefused :
    (0x0FFFFFFF#32).toNat / 2 ^ 28 = 0 ∧ 4 ≤ (0x40000000#32).toNat / 2 ^ 28 ∧ 4 ≤ (0xFFFFFFFF#32).toNat / 2 ^ 28 := by
  decide
theorem witness_SetReservedBitIsRefused :
    ((0x10100000#32).toNat / 2 ^ 28 = 1 ∧ (0x10100000#32).toNat % 2 ^ 21 ≠ 0) ∧
      (0x38000000#32).toNat / 2 ^ 28 = 3 ∧ (0x38000000#32).toNat % 2 ^ 28 ≠ 0 := by decide
theorem witness_StepRunsTheDecodedCommand :
    ((wit .kk).withHost [.command 0x30000000#32]).host = .command 0x30000000#32 :: [] ∧
      decodeTableWord 32 0x30000000 = some .release := by decide
theorem witness_StepWithNoActHoldsTheState : State.reset.host = [] := rfl
theorem witness_EarlyCommandIsRefused :
    ((wit .kk).withHost [.commandEarly 0x30000000#32]).host = .commandEarly 0x30000000#32 :: [] := rfl
theorem witness_HostWriteChangesOneSpace :
    ((wit .kk).withHost [.place .out [.rat 2]]).host = .place .out [.rat 2] :: [] ∧
      ((wit .kk).withHost [.poke .tab 0 (.rat 2)]).host = .poke .tab 0 (.rat 2) :: [] := ⟨rfl, rfl⟩
/-- A whole write and a write of one element. -/
theorem witness_TableWriteRefusesEveryLaterCommand :
    (((wit .kk).withHost [.place .tab [.rat 2]]).valid = true ∧
      ((wit .kk).withHost [.place .tab [.rat 2]]).host = .place .tab [.rat 2] :: []) ∧
      (((wit .kk).withHost [.poke .tab 0 (.rat 2)]).valid = true ∧
      ((wit .kk).withHost [.poke .tab 0 (.rat 2)]).host = .poke .tab 0 (.rat 2) :: []) ∧
      step { wit .kk with tabMutated := true } = .next { wit .kk with tabMutated := true } ∧
      Instr.release.wellFormed = true := ⟨⟨rfl, rfl⟩, ⟨rfl, rfl⟩, rfl, rfl⟩
theorem witness_FeedbackHasThreeCases :
    0 < Config.hw.num.val (.rat 1) ∧ Config.hw.num.val (.rat (-1)) < 0 ∧ Config.hw.num.val (.rat 0) = 0 := by simp
theorem witness_FeedbackSignIsFixed :
    Config.hw.num.val (.rat (-1)) < 0 ∧ 0 < Config.hw.num.val (.rat 1) ∧ Config.hw.num.val (.rat 0) = 0 := by simp
theorem witness_LookupInterpolatesAdjacentEntries : tableFits (instX .kk 0 0 0 0 [] [] [] 0) = true := by decide
/-- Below the bound, and on it. -/
theorem witness_LookupStaysInTheTable :
    tableFits (instX .kk 0 0 0 0 [] [] [] 0) = true ∧ (instX .kk 0 0 0 0 [] [] [] 0).ls.toNat + cfgX.F ≤ 32 ∧
      (instX .kk 0 0 0 0 [] [] [] 0).ls.toNat + ({ cfgX with fracBits := 30 } : Config).F = 32 := by decide
theorem witness_RampIsExactlyLinear : 1 ≤ 1 ∧ 0 < 1 ∧ 1 ≤ 2 ∧ 1 < 2 := by decide
theorem witness_ConstructLeavesTheClosedForm :
    (wit .aa).tabMutated = false ∧ (0#5).toNat + Config.hw.F ≤ 32 ∧ Memory.read (wit .aa).cfg 0 = some (.rat 1) ∧
      0 < Config.hw.num.val (.rat 1) ∧ Memory.read (wit .aa).fin 0 = some (.rat 1) ∧
      Memory.read (wit .aa).pin 0 = some (.rat 1) ∧ Memory.read (wit .aa).bin 0 = some (.rat 0) ∧
      Memory.supplies (wit .aa).tab (2 ^ (0#5).toNat) = true :=
  ⟨rfl, hw_fits, rfl, hw_one_pos, rfl, rfl, rfl, by decide⟩
theorem witness_ConstructIgnoresTheOldInstance :
    sameButRegisters (wit .aa) { wit .kk with valid := false, phase := 5, prevOut := .rat 7 } :=
  ⟨rfl, rfl, rfl, rfl, rfl, rfl, rfl, rfl, rfl⟩
/-- One row per clause, the size and the period at their bounds on both sides. -/
theorem witness_ConstructRefusesMalformedInputs :
    (32 < (17#5).toNat + cfgX.F ∧ (16#5).toNat + cfgX.F ≤ 32 ∧ Memory.read (placed [1] [] [1] [1] [0] 0).cfg 0 = none ∧
      Memory.read (placed [1] [0] [1] [1] [0] 0).cfg 0 = some (.rat 0) ∧
      Memory.read (placed [1] [1] [1] [1] [0] 0).cfg 0 = some (.rat 1) ∧
      Memory.read (placed [1] [1] [] [1] [0] 0).fin 0 = none ∧ Memory.read (placed [1] [1] [1] [] [0] 0).pin 0 = none ∧
      Memory.read (placed [1] [1] [1] [1] [] 0).bin 0 = none ∧ 1 < 2 ^ (1#5).toNat ∧
      Memory.read (placed [1] [1] [1] [1] [0] 0).tab 1 = none) ∧
      cfgX.num.val (.rat 0) ≤ 0 ∧ 0 < cfgX.num.val (.rat 1) := ⟨by decide +kernel, by simp, by simp⟩
theorem witness_ReleaseEndsTheInstance : (wit .aa).tabMutated = false ∧ (wit .aa).valid = true := ⟨rfl, rfl⟩
theorem witness_NothingElseRunsWithoutAnInstance :
    (Instr.genKK 1#26).wellFormed = true ∧ (∀ v l, Instr.genKK 1#26 ≠ .construct v l) ∧
      State.reset.tabMutated = false ∧ State.reset.valid = false :=
  ⟨by decide, fun _ _ h => (by cases h), rfl, rfl⟩
theorem witness_PowerOnHasNoInstance :
    Instr.release.wellFormed = true ∧ ∀ v l, Instr.release ≠ .construct v l :=
  ⟨rfl, fun _ _ h => (by cases h)⟩

/-- The hypotheses of the four GEN statements, at the shortest block. -/
def GenHypotheses (v : Variant) : Prop :=
  (1#26 : BitVec 26) ≠ 0#26 ∧ (wit v).tabMutated = false ∧ (wit v).valid = true ∧ (wit v).variant = v ∧
    tableFits (wit v) = true ∧ (∀ i, i < (1#26).toNat → Memory.read (wit v).fin i = some (.rat 1)) ∧
    (∀ i, i < (1#26).toNat → Memory.read (wit v).pin i = some (.rat 1)) ∧ Memory.read (wit v).bin 0 = some (.rat 0) ∧
    Memory.supplies (wit v).out (1#26).toNat = true

theorem witness_gen (v : Variant) : GenHypotheses v := by
  have one : ∀ m : Memory, Memory.read m 0 = some (.rat 1) →
      ∀ i, i < (1#26).toNat → Memory.read m i = some (.rat 1) := by
    intro m h i hi
    have hi' : i < 1 := hi
    obtain rfl : i = 0 := by omega
    exact h
  exact ⟨by decide, rfl, rfl, rfl, wit_fits v, one _ rfl, one _ rfl, rfl, rfl⟩

theorem witness_GenAAFollowsTheRecurrences : GenHypotheses .aa := witness_gen .aa
theorem witness_GenAKFollowsTheRecurrences : GenHypotheses .ak := witness_gen .ak
theorem witness_GenKAFollowsTheRecurrences : GenHypotheses .ka := witness_gen .ka
theorem witness_GenKKFollowsTheRecurrences : GenHypotheses .kk := witness_gen .kk
theorem witness_WrongShapeIsRefused :
    (1#26 : BitVec 26) ≠ 0#26 ∧ (wit .kk).tabMutated = false ∧ (wit .kk).valid = true ∧ (wit .kk).variant ≠ .aa := by
  decide
/-- One state per missing element, the last index of an array among them. -/
theorem witness_MissingElementIsRefused :
    (2#26 : BitVec 26) ≠ 0#26 ∧ (wit .aa).tabMutated = false ∧ (wit .aa).valid = true ∧ (wit .aa).variant = .aa ∧
      Memory.read { wit .aa with bin := [] }.bin 0 = none ∧
      (1 < (2#26).toNat ∧ Memory.read (wit .aa).fin 1 = none) ∧
      (1 < (2#26).toNat ∧ Memory.read (wit .aa).pin 1 = none) ∧
      (0 < 1 ∧ Memory.read { wit .kk with fin := [] }.fin 0 = none) ∧
      1 < (2#26).toNat ∧ Memory.read (wit .kk).out 1 = none := by decide +kernel
theorem witness_GenLatchesTheScalarsAndTheLastOutput : ∃ t, exec (Instr.gen .ak 1#26) (wit .ak) = .next t :=
  wit_gen_completes .ak
theorem witness_HeldScalarsEqualConstantArrays :
    tableFits (wit .kk) = true ∧ Memory.supplies (wit .kk).fin (1#26).toNat = true ∧
      Memory.supplies (wit .kk).pin (1#26).toNat = true ∧ Memory.supplies (wit .kk).bin 1 = true ∧
      Memory.supplies (wit .kk).out (1#26).toNat = true ∧
      (Config.hw.num.val (wit .kk).prevFreq = 1 ∧
        ∀ i x, i < (1#26).toNat → Memory.read (wit .kk).fin i = some x → Config.hw.num.val x = 1) ∧
      (Config.hw.num.val (wit .kk).prevPhase = 1 ∧
        ∀ i x, i < (1#26).toNat → Memory.read (wit .kk).pin i = some x → Config.hw.num.val x = 1) := by
  refine ⟨wit_fits .kk, rfl, rfl, rfl, rfl, ⟨by simp [wit], fun i x hi hx => ?_⟩, ⟨by simp [wit], fun i x hi hx => ?_⟩⟩
  · rw [(witness_gen .kk).2.2.2.2.2.1 i hi] at hx
    rw [← Option.some.inj hx]; simp
  · rw [(witness_gen .kk).2.2.2.2.2.2.1 i hi] at hx
    rw [← Option.some.inj hx]; simp
theorem witness_ZeroFeedbackIgnoresThePreviousOutput :
    Memory.read (wit .kk).bin 0 = some (.rat 0) ∧ Config.hw.num.val (.rat 0) = 0 := ⟨rfl, hw_zero⟩
theorem witness_FirstBlockWalksTheTable :
    (1#26 : BitVec 26) ≠ 0#26 ∧ (wit .aa).tabMutated = false ∧ (0#5).toNat + Config.hw.F ≤ 32 ∧
      Memory.read (wit .aa).cfg 0 = some (.rat 1) ∧ 0 < Config.hw.num.val (.rat 1) ∧
      Memory.read (wit .aa).fin 0 = some (.rat 1) ∧ Memory.read (wit .aa).pin 0 = some (.rat 1) ∧
      Memory.read (wit .aa).bin 0 = some (.rat 0) ∧ Config.hw.num.val (.rat 0) = 0 ∧
      Memory.supplies (wit .aa).tab (2 ^ (0#5).toNat) = true ∧ Memory.supplies (wit .aa).out (1#26).toNat = true :=
  ⟨by decide, rfl, hw_fits, rfl, hw_one_pos, rfl, rfl, rfl, hw_zero, by decide, rfl⟩
theorem witness_OnlyAdmittedCommandsComplete :
    ((wit .kk).withHost [.command 0x2C000001#32]).host = .command 0x2C000001#32 :: [] ∧
      (((wit .kk).withHost [.command 0x2C000001#32]).valid = true →
        ((wit .kk).withHost [.command 0x2C000001#32]).tabMutated = false →
        tableFits ((wit .kk).withHost [.command 0x2C000001#32]) = true) :=
  ⟨rfl, fun _ _ => by decide⟩
/-- A next state of each kind of command. -/
theorem witness_CommandsWriteOutOnly :
    (∃ t, exec (.construct .aa 0#5) (wit .kk) = .next t) ∧ (∃ t, exec (Instr.gen .ka 1#26) (wit .ka) = .next t) ∧
      exec .release (wit .aa) = .next (wit .aa).unset :=
  ⟨wit_construct_completes, wit_gen_completes .ka, rfl⟩
theorem witness_ConstantsNeverChangeWithinAnInstance :
    (wit .ka).valid = true ∧ (∃ t, step ((wit .ka).withHost [.command 0x28000001#32]) = .next t) ∧
      decode 0x28000001#32 = .ok (.genKA 1#26) :=
  ⟨rfl, wit_gen_completes .ka, by decide⟩
theorem witness_EveryStepKeepsTheInvariant :
    Inv Config.hw (wit .kk) ∧ step (wit .kk) = .next (wit .kk) := ⟨wit_inv .kk, rfl⟩
theorem witness_FeedbackTermIsBounded :
    Inv Config.hw (wit .kk) ∧ (wit .kk).valid = true ∧ (wit .kk).tabMutated = false ∧ TableWithin Config.hw (wit .kk) (-1) 1 :=
  ⟨wit_inv .kk, rfl, rfl, (wit_within .kk _ _).2 (by norm_num)⟩
theorem witness_UnconstructedRegistersAreNeverObserved :
    indistinct { wit .kk with valid := false } { wit .kk with valid := false, phase := 5 } :=
  Or.inr ⟨rfl, rfl, rfl, rfl, rfl, rfl, rfl, rfl, rfl, rfl, rfl⟩
/-- Two names of one number: the sum 1 + 0 beside 1. -/
theorem witness_StepsSeeNumbersNotNames :
    sameNumbers Config.hw (wit .kk) { wit .kk with prevOut := Config.hw.num.add (.rat 1) (.rat 0) } := by
  have refl : ∀ m : Memory, sameSpace Config.hw m m := fun m => List.forall₂_same.2 fun p _ => ⟨rfl, rfl⟩
  exact ⟨rfl, by simp [sameNum, wit], rfl, rfl, rfl, rfl, rfl, rfl, rfl, rfl, rfl, fun sp => by cases sp <;> exact refl _,
    .nil, rfl, rfl⟩

end Sys2Proof.Tests
end

section
/-! ## The spaces of an updated state

One lemma per update, beside the fields of Sys2Proof/Laws/State.lean. -/

namespace Sys2Proof.Machine

@[simp] theorem State.withSample_space (s : State) (p : Word) (y : NumVal) (sp : Space) :
    (s.withSample p y).space sp = s.space sp := by
  cases sp <;> rfl

@[simp] theorem State.latchFreq_space (s : State) (f : NumVal) (sp : Space) : (s.latchFreq f).space sp = s.space sp := by
  cases sp <;> rfl

@[simp] theorem State.latchPhase_space (s : State) (p : NumVal) (sp : Space) :
    (s.latchPhase p).space sp = s.space sp := by
  cases sp <;> rfl

@[simp] theorem State.withHost_space (s : State) (h : List HostAct) (sp : Space) :
    (s.withHost h).space sp = s.space sp := by
  cases sp <;> rfl

@[simp] theorem State.unset_space (s : State) (sp : Space) : s.unset.space sp = s.space sp := by cases sp <;> rfl

@[simp] theorem State.constructed_space (s : State) (c : Config) (v : Variant) (l : BitVec 5) (T f p : NumVal)
    (sp : Space) : (State.constructed c v l T f p s).space sp = s.space sp := by
  cases sp <;> rfl

/-- Replacing OUT is the replacement of that one space. -/
@[simp] theorem State.withOut_space (s : State) (m : Memory) (sp : Space) :
    (s.withOut m).space sp = (s.withSpace .out m).space sp :=
  rfl

/-- One replaced space, seen from any space. -/
theorem State.withSpace_space (s : State) (sp q : Space) (m : Memory) :
    (s.withSpace sp m).space q = if q = sp then m else s.space q := by
  split_ifs with h
  · rw [h, State.withSpace_space_same]
  · exact State.withSpace_space_other s m h

end Sys2Proof.Machine
end

section
/-! ## Every step keeps the invariant

A lookup interpolates between two entries of the table, so PREVOUT stays in the table's range; the constants change only
where CONSTRUCT writes them by their formulas; a host write of TAB while VALID is 1 is on record. -/

namespace Sys2Proof.Machine

open Sys2Proof.Safety

/-! ### A lookup stays in the table's range (R84 to R86) -/

/-- The fraction of a position is a fraction of one table step (R84). -/
theorem lookupFrac_mem_Icc (c : Config) (pos : Word) : c.num.val (lookupFrac c pos) ∈ Set.Icc (0 : ℝ) 1 := by
  have hlt : ((pos.toNat % 2 ^ c.F : Nat) : ℝ) ≤ 2 ^ c.F := by
    exact_mod_cast (Nat.mod_lt _ (Nat.two_pow_pos _)).le
  rw [lookupFrac_val]
  exact ⟨by positivity, div_le_one_of_le₀ hlt (by positivity)⟩

/-- Bounds of both entries bound the value interpolated between them (R86). -/
theorem interpolate_mem_Icc {c : Config} {t0 t1 : NumVal} (pos : Word) {lo hi : ℝ}
    (h0 : c.num.val t0 ∈ Set.Icc lo hi) (h1 : c.num.val t1 ∈ Set.Icc lo hi) :
    c.num.val (interpolate c t0 t1 (lookupFrac c pos)) ∈ Set.Icc lo hi := by
  rw [interpolate_val]
  exact (convex_Icc lo hi).add_smul_sub_mem h0 h1 (lookupFrac_mem_Icc c pos)

/-- With the table's own mask, bounds of the table bound every lookup (R86). -/
theorem lookup_within {c : Config} {s : State} {pos : Word} {y : NumVal} {lo hi : ℝ} (hm : s.loMask = loMaskOf s.ls)
    (hw : TableWithin c s lo hi) (h : lookup c s pos = some y) : lo ≤ c.num.val y ∧ c.num.val y ≤ hi := by
  obtain ⟨t0, t1, h0, h1, rfl⟩ := lookup_eq_some.1 h
  rw [hm] at h0 h1
  exact interpolate_mem_Icc pos (hw _ t0 (and_loMaskOf_lt _ _) h0) (hw _ t1 (and_loMaskOf_lt _ _) h1)

/-- The last output of a block that is not empty comes from a lookup (R92). -/
theorem LoopTrace.exists_lookup_last {c : Config} {s : State} {b : Block} {i m : Nat} {P : Nat → Word} {Y : Nat → NumVal}
    (h : LoopTrace c s b i m P Y) (hm : 1 ≤ m) : ∃ pos, lookup c s pos = some (Y m) := by
  obtain ⟨-, -, hT⟩ := h
  obtain ⟨j, rfl⟩ := Nat.exists_eq_add_of_le' hm
  obtain ⟨_, _, -, -, -, hl⟩ := hT j (Nat.lt_succ_self j)
  exact ⟨_, hl⟩

end Sys2Proof.Machine

namespace Sys2Proof.Safety

open Sys2Proof.Machine

/-! ### What a routine needs and leaves alone -/

/-- The clauses of `Inv` while VALID is 1 and the table unbroken, without the bound on PREVOUT, which CONSTRUCT's warm-up
does not start with. -/
structure Equipped (c : Config) (s : State) : Prop where
  canonical : ∀ sp, Memory.wf (s.space sp) = true
  fits : s.ls.toNat + c.F ≤ 32
  mask : s.loMask = loMaskOf s.ls
  scale : c.num.val s.radToInc = (tableSize s.ls : ℝ) * 2 ^ c.F / c.num.val c.U
  period : ∃ T : ℝ, 0 < T ∧ c.num.val s.cpsToInc = (tableSize s.ls : ℝ) * 2 ^ c.F * T
  table : Memory.supplies s.tab (tableSize s.ls) = true

theorem Equipped.of_inv {c : Config} {s : State} (h : Inv c s) (hv : s.valid = true) (hu : s.tabMutated = false) :
    Equipped c s :=
  ⟨h.canonical, h.fits hv, h.mask hv, h.scale hv, h.period hv, h.table hv hu⟩

theorem Equipped.inv {c : Config} {s : State} (h : Equipped c s)
    (hb : ∀ lo hi, TableWithin c s lo hi → lo ≤ c.num.val s.prevOut ∧ c.num.val s.prevOut ≤ hi) : Inv c s :=
  ⟨h.canonical, fun _ => h.fits, fun _ => h.mask, fun _ => h.scale, fun _ => h.period, fun _ _ => h.table,
    fun _ _ => hb⟩

/-- The registers CONSTRUCT sets are those of its formulas (R69, R70). -/
theorem Equipped.constructed {c : Config} {s : State} {ls : BitVec 5} {T : NumVal} (var : Variant) (f0 p0 : NumVal)
    (hc : ∀ sp, Memory.wf (s.space sp) = true) (hf : ls.toNat + c.F ≤ 32) (hT : c.num.pos T = true)
    (ht : Memory.supplies s.tab (tableSize ls) = true) : Equipped c (s.constructed c var ls T f0 p0) where
  canonical sp := by rw [State.constructed_space]; exact hc sp
  fits := hf
  mask := rfl
  scale := radToIncOf_val c ls
  period := ⟨c.num.val T, (c.num.pos_iff T).1 hT, cpsToIncOf_val c ls T⟩
  table := ht

/-- The routine over at least one sample leaves the constants and the table alone and its last lookup in PREVOUT, so it
gives the whole invariant, whatever PREVOUT held before. -/
theorem Equipped.inv_of_routine {c : Config} {v : Variant} {emit : Bool} {n : Nat} {s t : State} (h : Equipped c s)
    (hn : 1 ≤ n) (hr : routine c v emit n s = some t) : Inv c t := by
  obtain ⟨b, P, Y, -, hT, ht, -, -, hwf⟩ := routine_next hr
  obtain ⟨pos, hy⟩ := hT.exists_lookup_last hn
  have hout : Memory.wf t.out = true := hwf (h.canonical .out)
  generalize t.out = o at ht hout
  subst ht
  refine Equipped.inv ⟨fun sp => ?_, h.fits, h.mask, h.scale, h.period, h.table⟩ fun lo hi hw =>
    lookup_within h.mask hw hy
  rw [State.latchPhase_space, State.latchFreq_space, State.withOut_space, State.withSpace_space,
    State.withSample_space]
  split_ifs
  · exact hout
  · exact h.canonical sp

/-! ### The commands and the host's acts -/

/-- A GEN command keeps the invariant. -/
theorem Inv.of_generate {c : Config} {v : Variant} {n : BitVec 26} {s t : State} (h : Inv c s)
    (hg : generate c v n s = .next t) : Inv c t := by
  obtain ⟨hn, hu, hv, -, -, hr⟩ := generate_next.1 hg
  have hn' : 1 ≤ n.toNat := Nat.one_le_iff_ne_zero.2 fun e => hn (BitVec.eq_of_toNat_eq e)
  exact (Equipped.of_inv h hv hu).inv_of_routine hn' hr

/-- CONSTRUCT gives the invariant from spaces in canonical form alone. -/
theorem Inv.of_construct {c : Config} {v : Variant} {ls : BitVec 5} {s t : State}
    (h : ∀ sp, Memory.wf (s.space sp) = true) (hg : construct c v ls s = .next t) : Inv c t := by
  obtain ⟨-, hf, hsup, T, f0, p0, -, hT, -, -, hr⟩ := construct_next.1 hg
  have ht : Memory.supplies s.tab (tableSize ls) = true := by
    rw [constructSupplied, Bool.and_eq_true] at hsup
    exact hsup.2
  exact (Equipped.constructed v f0 p0 h hf hT ht).inv_of_routine le_rfl hr

/-- While VALID is 0 the invariant asks for canonical spaces only. -/
theorem Inv.of_not_valid {c : Config} {s : State} (h : ∀ sp, Memory.wf (s.space sp) = true) (hv : s.valid = false) :
    Inv c s := by
  have no : s.valid ≠ true := by simp [hv]
  exact ⟨h, fun g => absurd g no, fun g => absurd g no, fun g => absurd g no, fun g => absurd g no,
    fun g => absurd g no, fun g => absurd g no⟩

/-- RELEASE keeps the invariant. -/
theorem Inv.of_release {c : Config} {s t : State} (h : Inv c s) (hg : releaseInstance s = .next t) : Inv c t := by
  obtain ⟨-, -, rfl⟩ := releaseInstance_next.1 hg
  exact Inv.of_not_valid (fun sp => by rw [State.unset_space]; exact h.canonical sp) rfl

/-- Every command keeps the invariant. -/
theorem Inv.of_exec {i : Instr} {s t : State} (h : Inv Config.hw s) (he : exec i s = .next t) : Inv Config.hw t := by
  cases i with
  | construct v ls => exact Inv.of_construct h.canonical he
  | genAA n => exact h.of_generate he
  | genAK n => exact h.of_generate he
  | genKA n => exact h.of_generate he
  | genKK n => exact h.of_generate he
  | release => exact h.of_release he

/-- The pending acts of the host are no part of the invariant. -/
theorem Inv.withHost {c : Config} {s : State} (h : Inv c s) (acts : List HostAct) : Inv c (s.withHost acts) :=
  ⟨fun sp => by rw [State.withHost_space]; exact h.canonical sp, h.fits, h.mask, h.scale, h.period, h.table, h.bounded⟩

/-- While VALID is 1, a host write that leaves no record leaves TAB alone (R51). -/
theorem hostWrites_tab_of_unbroken {s : State} {sp : Space} {m : Memory} (hv : s.valid = true)
    (hu : (s.hostWrites sp m).tabMutated = false) : s.tabMutated = false ∧ (s.hostWrites sp m).tab = s.tab := by
  rw [State.hostWrites_tabMutated, hv, Bool.true_and, Bool.or_eq_false_iff, beq_eq_false_iff_ne] at hu
  obtain ⟨hs, hsp⟩ := hu
  exact ⟨hs, (State.hostWrites_space s sp .tab m).trans (State.withSpace_space_other s m hsp.symm)⟩

/-- A host write in canonical form keeps the invariant: while VALID is 1 it leaves TAB alone or is on record. -/
theorem Inv.hostWrites {c : Config} {s : State} (h : Inv c s) (sp : Space) {m : Memory} (hm : Memory.wf m = true) :
    Inv c (s.hostWrites sp m) where
  canonical q := by
    rw [State.hostWrites_space, State.withSpace_space]
    split_ifs
    · exact hm
    · exact h.canonical q
  fits := by simpa using h.fits
  mask := by simpa using h.mask
  scale := by simpa using h.scale
  period := by simpa using h.period
  table hv hu := by
    rw [State.hostWrites_valid] at hv
    obtain ⟨hs, ht⟩ := hostWrites_tab_of_unbroken hv hu
    rw [ht, State.hostWrites_ls]
    exact h.table hv hs
  bounded hv hu lo hi hw := by
    rw [State.hostWrites_valid] at hv
    obtain ⟨hs, ht⟩ := hostWrites_tab_of_unbroken hv hu
    rw [TableWithin, ht, State.hostWrites_ls] at hw
    rw [State.hostWrites_prevOut]
    exact h.bounded hv hs lo hi hw

/-- Settles O44: by the kind of the host's act, and for a command by the command. -/
theorem everyStepKeepsTheInvariant : Obligations.EveryStepKeepsTheInvariant := by
  intro s t h hstep
  rcases step_next hstep with ⟨-, rfl⟩ | ⟨w, rest, i, -, -, he⟩ | ⟨sp, xs, rest, -, rfl⟩ | ⟨sp, k, v, rest, -, rfl⟩
  · exact h
  · exact (h.withHost rest).of_exec he
  · exact (h.withHost rest).hostWrites sp (Memory.wf_ofList xs)
  · exact (h.withHost rest).hostWrites sp (Memory.wf_write k v (h.canonical sp))

end Sys2Proof.Safety
end

section
/-! ## A step sees numbers, not their names

A relational proof: every operation of the datapath, the commands and the host takes values that are the same numbers to
values that are the same numbers (`sameNum`, `sameSpace`, `sameNumbers`), and answers on both sides or on neither
(`Option.Rel`). -/

namespace Sys2Proof.Safety

open Sys2Proof.Machine

/-! ### Answers on both sides or on neither -/

theorem rel_bind {α β γ δ : Type} {R : α → β → Prop} {Q : γ → δ → Prop} {x : Option α} {y : Option β}
    {f : α → Option γ} {g : β → Option δ} (h : Option.Rel R x y) (hfg : ∀ a b, R a b → Option.Rel Q (f a) (g b)) :
    Option.Rel Q (x.bind f) (y.bind g) := by
  cases h with
  | some hab => exact hfg _ _ hab
  | none => exact .none

theorem rel_map {α β γ δ : Type} {R : α → β → Prop} {Q : γ → δ → Prop} {x : Option α} {y : Option β}
    {f : α → γ} {g : β → δ} (h : Option.Rel R x y) (hfg : ∀ a b, R a b → Q (f a) (g b)) :
    Option.Rel Q (x.map f) (y.map g) := by
  cases h with
  | some hab => exact .some (hfg _ _ hab)
  | none => exact .none

theorem rel_isSome {α β : Type} {R : α → β → Prop} {x : Option α} {y : Option β} (h : Option.Rel R x y) :
    y.isSome = x.isSome := by
  cases h <;> rfl

/-- The two ways a pair of answers can be related, as equations. -/
theorem rel_cases {α β : Type} {R : α → β → Prop} {x : Option α} {y : Option β} (h : Option.Rel R x y) :
    (x = none ∧ y = none) ∨ ∃ a b, x = some a ∧ y = some b ∧ R a b := by
  cases h with
  | some hab => exact .inr ⟨_, _, rfl, rfl, hab⟩
  | none => exact .inl ⟨rfl, rfl⟩

/-! ### Numbers -/

section

variable {c : Config} {x x' y y' : NumVal}

theorem sameNum.refl (c : Config) (x : NumVal) : sameNum c x x := rfl

theorem sameNum.add (hx : sameNum c x x') (hy : sameNum c y y') : sameNum c (c.num.add x y) (c.num.add x' y') := by
  rw [sameNum, NumSystem.add_val, NumSystem.add_val, hx, hy]

theorem sameNum.mul (hx : sameNum c x x') (hy : sameNum c y y') : sameNum c (c.num.mul x y) (c.num.mul x' y') := by
  rw [sameNum, NumSystem.mul_val, NumSystem.mul_val, hx, hy]

/-- The comparisons of R8 are comparisons of numbers. -/
theorem sameNum.pos (h : sameNum c x x') : c.num.pos x' = c.num.pos x :=
  Bool.eq_iff_iff.2 (by rw [c.num.pos_iff, c.num.pos_iff, h])

theorem sameNum.neg (h : sameNum c x x') : c.num.neg x' = c.num.neg x :=
  Bool.eq_iff_iff.2 (by rw [c.num.neg_iff, c.num.neg_iff, h])

theorem sameNum.coefSign (h : sameNum c x x') : coefSign c x' = coefSign c x := by
  rw [Machine.coefSign, Machine.coefSign, h.pos, h.neg]

theorem sameNum.feedback (hx : sameNum c x x') (hy : sameNum c y y') :
    sameNum c (feedback c x y) (feedback c x' y') := by
  rw [Machine.feedback, Machine.feedback, hy.coefSign]
  cases Machine.coefSign c y with
  | positive => exact hx.mul hy
  | negative => exact (hx.mul hx).mul hy
  | zero => exact sameNum.refl c _

theorem sameNum.phaseOffset {r r' : NumVal} (hx : sameNum c x x') (hr : sameNum c r r') (hy : sameNum c y y') :
    phaseOffset c x' r' y' = phaseOffset c x r y :=
  (trunc32_congr (hx.add (hr.mul hy))).symm

theorem sameNum.interpolate (hx : sameNum c x x') (hy : sameNum c y y') (frac : NumVal) :
    sameNum c (interpolate c x y frac) (interpolate c x' y' frac) := by
  rw [sameNum, interpolate_val, interpolate_val, hx, hy]

theorem sameNum.cpsToIncOf (h : sameNum c x x') (ls : BitVec 5) :
    sameNum c (cpsToIncOf c ls x) (cpsToIncOf c ls x') := by
  rw [sameNum, cpsToIncOf_val, cpsToIncOf_val, h]

/-! ### Spaces -/

/-- An element is supplied in both spaces or in neither. -/
theorem sameSpace.read {m m' : Memory} (h : sameSpace c m m') (k : Nat) :
    Option.Rel (sameNum c) (Memory.read m k) (Memory.read m' k) := by
  induction h with
  | nil => exact .none
  | @cons p q m m' hpq _ ih =>
    obtain ⟨hk, hv⟩ := hpq
    rw [Memory.read_cons, Memory.read_cons, ← hk]
    split_ifs
    · exact .some hv
    · exact ih

theorem sameSpace.supplies {m m' : Memory} (h : sameSpace c m m') (n : Nat) :
    Memory.supplies m' n = Memory.supplies m n := by
  induction n with
  | zero => rfl
  | succ n ih => rw [Memory.supplies, Memory.supplies, rel_isSome (h.read n), ih]

theorem sameSpace.write {m m' : Memory} (h : sameSpace c m m') (k : Nat) (hx : sameNum c x x') :
    sameSpace c (Memory.write m k x) (Memory.write m' k x') := by
  induction h with
  | nil => exact .cons ⟨rfl, hx⟩ .nil
  | @cons p q m m' hpq hm ih =>
    obtain ⟨a, v⟩ := p
    obtain ⟨a', v'⟩ := q
    obtain ⟨rfl, hv⟩ := hpq
    unfold Memory.write
    split_ifs
    · exact .cons ⟨rfl, hx⟩ (.cons ⟨rfl, hv⟩ hm)
    · exact .cons ⟨rfl, hx⟩ hm
    · exact .cons ⟨rfl, hv⟩ ih

theorem sameSpace.fillFrom {xs xs' : List NumVal} (h : List.Forall₂ (sameNum c) xs xs') (k : Nat) :
    sameSpace c (Memory.fillFrom k xs) (Memory.fillFrom k xs') := by
  induction h generalizing k with
  | nil => exact .nil
  | cons hx _ ih => exact .cons ⟨rfl, hx⟩ (ih (k + 1))

/-! ### The updates of the state -/

variable {s t : State}

theorem sameNumbers.withSpace_spaces (h : sameNumbers c s t) (sp q : Space) {m m' : Memory} (hm : sameSpace c m m') :
    sameSpace c ((s.withSpace sp m).space q) ((t.withSpace sp m').space q) := by
  rw [State.withSpace_space, State.withSpace_space]
  split_ifs
  · exact hm
  · exact h.spaces q

theorem sameNumbers.withOut (h : sameNumbers c s t) {m m' : Memory} (hm : sameSpace c m m') :
    sameNumbers c (s.withOut m) (t.withOut m') :=
  { h with spaces := fun q => h.withSpace_spaces .out q hm }

theorem sameNumbers.withSample (h : sameNumbers c s t) (p : Word) (hy : sameNum c y y') :
    sameNumbers c (s.withSample p y) (t.withSample p y') :=
  { h with phase := rfl, prevOut := hy, spaces := fun q => by simpa using h.spaces q }

theorem sameNumbers.latchFreq (h : sameNumbers c s t) (hx : sameNum c x x') :
    sameNumbers c (s.latchFreq x) (t.latchFreq x') :=
  { h with prevFreq := hx, spaces := fun q => by simpa using h.spaces q }

theorem sameNumbers.latchPhase (h : sameNumbers c s t) (hx : sameNum c x x') :
    sameNumbers c (s.latchPhase x) (t.latchPhase x') :=
  { h with prevPhase := hx, spaces := fun q => by simpa using h.spaces q }

theorem sameNumbers.withHost (h : sameNumbers c s t) {a b : List HostAct} (hab : List.Forall₂ (sameAct c) a b) :
    sameNumbers c (s.withHost a) (t.withHost b) :=
  { h with host := hab, spaces := fun q => by simpa using h.spaces q }

/-- What the registers read as after RELEASE is drawn by the count alone (log 4). -/
theorem sameNumbers.unset (h : sameNumbers c s t) : sameNumbers c s.unset t.unset where
  phase := by simp [h.unsetDraws]
  prevOut := by simp [sameNum, h.unsetDraws]
  prevFreq := by simp [sameNum, h.unsetDraws]
  prevPhase := by simp [sameNum, h.unsetDraws]
  cpsToInc := by simp [sameNum, h.unsetDraws]
  radToInc := by simp [sameNum, h.unsetDraws]
  loMask := by simp [h.unsetDraws]
  variant := by simp [h.unsetDraws]
  ls := by simp [h.unsetDraws]
  tabRef := h.tabRef
  valid := rfl
  spaces q := by simpa using h.spaces q
  host := h.host
  tabMutated := h.tabMutated
  unsetDraws := by simp [h.unsetDraws]

theorem sameNumbers.constructed (h : sameNumbers c s t) (var : Variant) (ls : BitVec 5) {T T' f f' p p' : NumVal}
    (hT : sameNum c T T') (hf : sameNum c f f') (hp : sameNum c p p') :
    sameNumbers c (s.constructed c var ls T f p) (t.constructed c var ls T' f' p') where
  phase := rfl
  prevOut := rfl
  prevFreq := hf
  prevPhase := hp
  cpsToInc := hT.cpsToIncOf ls
  radToInc := rfl
  loMask := rfl
  variant := rfl
  ls := rfl
  tabRef := rfl
  valid := rfl
  spaces q := by simpa using h.spaces q
  host := h.host
  tabMutated := h.tabMutated
  unsetDraws := h.unsetDraws

theorem sameNumbers.hostWrites (h : sameNumbers c s t) (sp : Space) {m m' : Memory} (hm : sameSpace c m m') :
    sameNumbers c (s.hostWrites sp m) (t.hostWrites sp m') where
  phase := by simp [h.phase]
  prevOut := by simp [h.prevOut]
  prevFreq := by simp [h.prevFreq]
  prevPhase := by simp [h.prevPhase]
  cpsToInc := by simp [h.cpsToInc]
  radToInc := by simp [h.radToInc]
  loMask := by simp [h.loMask]
  variant := by simp [h.variant]
  ls := by simp [h.ls]
  tabRef := by simp [h.tabRef]
  valid := by simp [h.valid]
  spaces q := by simp [h.withSpace_spaces sp q hm]
  host := by simp [h.host]
  tabMutated := by simp [h.tabMutated, h.valid]
  unsetDraws := by simp [h.unsetDraws]

/-! ### The temporaries of a block (R27) -/

/-- One input at the same point of a block, but for the names of numbers. -/
inductive SameSource (c : Config) : Source → Source → Prop where
  | perSample : SameSource c .perSample .perSample
  | perBlock {new new' run run' slope slope' : NumVal} (hnew : sameNum c new new') (hrun : sameNum c run run')
      (hslope : sameNum c slope slope') : SameSource c (.perBlock new run slope) (.perBlock new' run' slope')

/-- RAMP_SETUP's values are given by numbers in a block that is not empty (R81). -/
theorem SameSource.ofScalar {new new' prev prev' K K' : NumVal} {n : Nat} (hn : 1 ≤ n) (hnew : sameNum c new new')
    (hprev : sameNum c prev prev') (hK : sameNum c K K') :
    SameSource c (Source.ofScalar c new prev K n) (Source.ofScalar c new' prev' K' n) := by
  obtain ⟨hrun, hslope⟩ := rampSetup_val c new prev K hn
  obtain ⟨hrun', hslope'⟩ := rampSetup_val c new' prev' K' hn
  refine .perBlock hnew ?_ ?_
  · rw [sameNum, hrun, hrun', hK, hprev]
  · rw [sameNum, hslope, hslope', hK, hprev, hnew]

theorem SameSource.stepped {q q' : Source} (h : SameSource c q q') : SameSource c (q.stepped c) (q'.stepped c) := by
  cases h with
  | perSample => exact .perSample
  | perBlock hnew hrun hslope => exact .perBlock hnew (hrun.add hslope) hslope

theorem SameSource.select {q q' : Source} {K K' : NumVal} {e e' : Option NumVal} (h : SameSource c q q')
    (hK : sameNum c K K') (he : Option.Rel (sameNum c) e e') :
    Option.Rel (sameNum c) (q.select c K e) (q'.select c K' e') := by
  cases h with
  | perSample => exact rel_map he fun _ _ hx => hK.mul hx
  | perBlock _ hrun _ => exact .some hrun

theorem SameSource.latched {q q' : Source} (h : SameSource c q q') (hx : sameNum c x x') :
    sameNum c (q.latched x) (q'.latched x') := by
  cases h with
  | perSample => exact hx
  | perBlock hnew _ _ => exact hnew

/-- The temporaries of a block, but for the names of numbers. -/
structure SameBlock (c : Config) (b b' : Block) : Prop where
  k : sameNum c b.k b'.k
  freq : SameSource c b.freq b'.freq
  offs : SameSource c b.offs b'.offs

theorem SameBlock.stepped {b b' : Block} (h : SameBlock c b b') : SameBlock c (b.stepped c) (b'.stepped c) :=
  ⟨h.k, h.freq.stepped, h.offs.stepped⟩

/-- A point in the sample loop, but for the names of numbers. -/
def SameLoop (c : Config) (p q : Block × State) : Prop := SameBlock c p.1 q.1 ∧ sameNumbers c p.2 q.2

/-! ### The datapath and the routine -/

theorem sameNumbers.readFin (h : sameNumbers c s t) (k : Nat) : Option.Rel (sameNum c) (readFin s k) (readFin t k) :=
  (h.spaces .fin).read k

theorem sameNumbers.readPin (h : sameNumbers c s t) (k : Nat) : Option.Rel (sameNum c) (readPin s k) (readPin t k) :=
  (h.spaces .pin).read k

theorem sameNumbers.readBin (h : sameNumbers c s t) (k : Nat) : Option.Rel (sameNum c) (readBin s k) (readBin t k) :=
  (h.spaces .bin).read k

theorem sameNumbers.readCfg (h : sameNumbers c s t) (k : Nat) : Option.Rel (sameNum c) (readCfg s k) (readCfg t k) :=
  (h.spaces .cfg).read k

theorem sameNumbers.lookup (h : sameNumbers c s t) (pos : Word) :
    Option.Rel (sameNum c) (lookup c s pos) (lookup c t pos) := by
  simp only [Machine.lookup, readTab_eq, h.loMask]
  exact rel_bind ((h.spaces .tab).read _) fun _ _ h0 =>
    rel_map ((h.spaces .tab).read _) fun _ _ h1 => h0.interpolate h1 _

theorem sameNumbers.writeOut (h : sameNumbers c s t) (k : Nat) (hy : sameNum c y y') :
    Option.Rel (sameNumbers c) (writeOut s k y) (writeOut t k y') := by
  have hout : sameSpace c s.out t.out := h.spaces .out
  rw [Machine.writeOut, Machine.writeOut, rel_isSome (hout.read k)]
  split_ifs
  · exact .some (h.withOut (hout.write k hy))
  · exact .none

theorem sameNumbers.sample (h : sameNumbers c s t) {b b' : Block} (hb : SameBlock c b b') (emit : Bool) (i : Nat) :
    Option.Rel (SameLoop c) (sample c emit i b s) (sample c emit i b' t) := by
  unfold Machine.sample
  refine rel_bind (hb.freq.select h.cpsToInc (h.readFin i)) fun finc finc' hfinc => ?_
  refine rel_bind (hb.offs.select h.radToInc (h.readPin i)) fun pinc pinc' hpinc => ?_
  rw [h.phase, ← trunc32_congr hfinc, hpinc.phaseOffset h.radToInc (h.prevOut.feedback hb.k)]
  refine rel_bind (h.lookup _) fun y y' hy => rel_map ?_ fun _ _ hu => ⟨hb.stepped, hu⟩
  have hs := h.withSample (add32 s.phase (trunc32 c finc)) hy
  cases emit with
  | true => exact hs.writeOut i hy
  | false => exact .some hs

theorem sameNumbers.samples (h : sameNumbers c s t) {b b' : Block} (hb : SameBlock c b b') (emit : Bool) (m i : Nat) :
    Option.Rel (SameLoop c) (samples c emit m i b s) (samples c emit m i b' t) := by
  induction m generalizing i b b' s t with
  | zero => exact .some ⟨hb, h⟩
  | succ m ih => exact rel_bind (h.sample hb emit i) fun _ _ hp => ih hp.2 hp.1 (i + 1)

theorem SameSource.sourceOf {prev prev' K K' : NumVal} {e e' : Option NumVal} {n : Nat} (hn : 1 ≤ n) (perBlock : Bool)
    (he : Option.Rel (sameNum c) e e') (hprev : sameNum c prev prev') (hK : sameNum c K K') :
    Option.Rel (SameSource c) (sourceOf c perBlock e prev K n) (sourceOf c perBlock e' prev' K' n) := by
  cases perBlock with
  | true => exact rel_map he fun _ _ hnew => .ofScalar hn hnew hprev hK
  | false => exact .some .perSample

theorem sameNumbers.prologue (h : sameNumbers c s t) (v : Variant) {n : Nat} (hn : 1 ≤ n) :
    Option.Rel (SameBlock c) (prologue c v n s) (prologue c v n t) :=
  rel_bind (h.readBin 0) fun _ _ hk =>
    rel_bind (SameSource.sourceOf hn v.fk (h.readFin 0) h.prevFreq h.cpsToInc) fun _ _ hfreq =>
      rel_map (SameSource.sourceOf hn v.pk (h.readPin 0) h.prevPhase h.radToInc) fun _ _ hoffs => ⟨hk, hfreq, hoffs⟩

theorem sameNumbers.epilogue (h : sameNumbers c s t) {b b' : Block} (hb : SameBlock c b b') :
    sameNumbers c (epilogue b s) (epilogue b' t) := by
  rw [epilogue_eq, epilogue_eq]
  exact (h.latchFreq (hb.freq.latched h.prevFreq)).latchPhase (hb.offs.latched h.prevPhase)

theorem sameNumbers.routine (h : sameNumbers c s t) (v : Variant) (emit : Bool) {n : Nat} (hn : 1 ≤ n) :
    Option.Rel (sameNumbers c) (routine c v emit n s) (routine c v emit n t) :=
  rel_bind (h.prologue v hn) fun _ _ hb =>
    rel_map (h.samples hb emit n 0) fun _ _ hp => hp.2.epilogue hp.1

theorem sameNumbers.warmup (h : sameNumbers c s t) : Option.Rel (sameNumbers c) (warmup c s) (warmup c t) :=
  h.routine .kk false le_rfl

/-! ### The commands -/

theorem sameNumbers.genSupplied (h : sameNumbers c s t) (v : Variant) (n : Nat) :
    genSupplied v n t = genSupplied v n s := by
  have hbin : sameSpace c s.bin t.bin := h.spaces .bin
  have hfin : sameSpace c s.fin t.fin := h.spaces .fin
  have hpin : sameSpace c s.pin t.pin := h.spaces .pin
  have hout : sameSpace c s.out t.out := h.spaces .out
  rw [Machine.genSupplied, Machine.genSupplied, hbin.supplies, hfin.supplies, hpin.supplies, hout.supplies]

theorem sameNumbers.constructSupplied (h : sameNumbers c s t) (ls : BitVec 5) :
    constructSupplied ls t = constructSupplied ls s := by
  have hfin : sameSpace c s.fin t.fin := h.spaces .fin
  have hpin : sameSpace c s.pin t.pin := h.spaces .pin
  have hbin : sameSpace c s.bin t.bin := h.spaces .bin
  have htab : sameSpace c s.tab t.tab := h.spaces .tab
  rw [Machine.constructSupplied, Machine.constructSupplied, hfin.supplies, hpin.supplies, hbin.supplies, htab.supplies]

theorem sameNumbers.generate (h : sameNumbers c s t) (v : Variant) (n : BitVec 26) :
    outcomesAlike (sameNumbers c) (generate c v n s) (generate c v n t) := by
  unfold Machine.generate
  rw [h.tabMutated, h.valid, h.variant, h.genSupplied]
  split_ifs with hn
  · rfl
  · rfl
  · have hn' : 1 ≤ n.toNat := Nat.one_le_iff_ne_zero.2 fun e => hn (BitVec.eq_of_toNat_eq e)
    rcases rel_cases (h.routine s.variant true hn') with ⟨es, et⟩ | ⟨u, u', es, et, hu⟩
    · rw [es, et]; rfl
    · rw [es, et]; exact hu
  · rfl
  · rfl
  · rfl

theorem sameNumbers.construct (h : sameNumbers c s t) (v : Variant) (ls : BitVec 5) :
    outcomesAlike (sameNumbers c) (construct c v ls s) (construct c v ls t) := by
  unfold Machine.construct
  rw [h.tabMutated, h.constructSupplied]
  rcases rel_cases (h.readCfg 0) with ⟨es, et⟩ | ⟨T, T', es, et, hT⟩
  · simp only [es, et]
    split_ifs <;> rfl
  simp only [es, et, hT.pos]
  split_ifs
  · rfl
  · rfl
  · rfl
  · rcases rel_cases (h.readFin 0) with ⟨fs, ft⟩ | ⟨f, f', fs, ft, hf⟩
    · simp only [fs, ft]; rfl
    rcases rel_cases (h.readPin 0) with ⟨ps, pt⟩ | ⟨p, p', ps, pt, hp⟩
    · simp only [fs, ft, ps, pt]; rfl
    rcases rel_cases (h.constructed v ls hT hf hp).warmup with ⟨ws, wt⟩ | ⟨u, u', ws, wt, hu⟩
    · simp only [fs, ft, ps, pt, ws, wt]; rfl
    · simp only [fs, ft, ps, pt, ws, wt]; exact hu
  · rfl

theorem sameNumbers.releaseInstance (h : sameNumbers c s t) :
    outcomesAlike (sameNumbers c) (releaseInstance s) (releaseInstance t) := by
  unfold Machine.releaseInstance
  rw [h.tabMutated, h.valid]
  split_ifs
  · rfl
  · exact h.unset
  · rfl

theorem sameNumbers.exec (h : sameNumbers Config.hw s t) (i : Instr) :
    outcomesAlike (sameNumbers Config.hw) (exec i s) (exec i t) := by
  cases i with
  | construct v ls => exact h.construct v ls
  | genAA n => exact h.generate .aa n
  | genAK n => exact h.generate .ak n
  | genKA n => exact h.generate .ka n
  | genKK n => exact h.generate .kk n
  | release => exact h.releaseInstance

/-! ### The host's acts -/

theorem sameNumbers.receive (h : sameNumbers Config.hw s t) (w : Word) :
    outcomesAlike (sameNumbers Config.hw) (receive w s) (receive w t) := by
  cases hd : decode w with
  | ok i => rw [receive_ok s hd, receive_ok t hd]; exact h.exec i
  | error r => rw [receive_error s hd, receive_error t hd]; rfl

theorem sameNumbers.perform (h : sameNumbers Config.hw s t) {a b : HostAct} (hab : sameAct Config.hw a b) :
    outcomesAlike (sameNumbers Config.hw) (perform a s) (perform b t) :=
  match a, b, hab with
  | .command w, .command _, rfl => h.receive w
  | .commandEarly _, .commandEarly _, _ => rfl
  | .place sp _, .place _ _, ⟨rfl, hxs⟩ => h.hostWrites sp (.fillFrom hxs 0)
  | .poke sp k _, .poke _ _ _, ⟨rfl, rfl, hv⟩ => h.hostWrites sp ((h.spaces sp).write k hv)

end

/-- Settles O47: the same act of the host is next on both sides, and every act takes the same numbers to the same
numbers. -/
theorem stepsSeeNumbersNotNames : Obligations.StepsSeeNumbersNotNames := by
  intro s t h
  have hhost := h.host
  cases es : s.host with
  | nil =>
    rw [es, List.forall₂_nil_left_iff] at hhost
    simp only [step, es, hhost]
    exact h
  | cons a rest =>
    rw [es, List.forall₂_cons_left_iff] at hhost
    obtain ⟨b, rest', hab, hrest, et⟩ := hhost
    simp only [step, es, et]
    exact (h.withHost hrest).perform hab

end Sys2Proof.Safety
end

section
/-! ## The commands that are not CONSTRUCT -/

namespace Sys2Proof

/-- The four GEN commands are one command with the variant as a field (R58, R67). -/
theorem Instr.cases_gen (i : Instr) :
    (∃ v l, i = .construct v l) ∨ (∃ v n, i = Instr.gen v n) ∨ i = .release := by
  cases i with
  | construct v l => exact .inl ⟨v, l, rfl⟩
  | genAA n => exact .inr (.inl ⟨.aa, n, rfl⟩)
  | genAK n => exact .inr (.inl ⟨.ak, n, rfl⟩)
  | genKA n => exact .inr (.inl ⟨.ka, n, rfl⟩)
  | genKK n => exact .inr (.inl ⟨.kk, n, rfl⟩)
  | release => exact .inr (.inr rfl)

theorem Instr.gen_wellFormed_iff (v : Variant) (n : BitVec 26) : (Instr.gen v n).wellFormed = true ↔ n ≠ 0#26 := by
  cases v <;> exact bne_iff_ne

end Sys2Proof

namespace Sys2Proof.Machine

theorem exec_construct (v : Variant) (l : BitVec 5) (s : State) :
    exec (.construct v l) s = construct Config.hw v l s :=
  rfl

theorem exec_gen (v : Variant) (n : BitVec 26) (s : State) : exec (Instr.gen v n) s = generate Config.hw v n s := by
  cases v <;> rfl

theorem exec_release (s : State) : exec .release s = releaseInstance s :=
  rfl

/-- While VALID is 0 a GEN command is refused, by the tests of R94 that come before NotConstructed or by that one. -/
theorem generate_of_not_valid {s : State} (c : Config) (v : Variant) (n : BitVec 26) (hv : s.valid = false) :
    generate c v n s =
      .refused (if n = 0#26 then .reserved .emptyBlock else if s.tabMutated then .tableMutated else .notConstructed) := by
  simp only [generate, hv, Bool.false_eq_true, if_false]
  split_ifs <;> rfl

/-- While VALID is 0 RELEASE is refused (R74). -/
theorem releaseInstance_of_not_valid {s : State} (hv : s.valid = false) :
    releaseInstance s = .refused (if s.tabMutated then .tableMutated else .notConstructed) := by
  simp only [releaseInstance, hv, Bool.false_eq_true, if_false]
  split_ifs <;> rfl

end Sys2Proof.Machine
end

section
/-! ## Without an instance, and at power-on -/

namespace Sys2Proof.Safety

open Sys2Proof.Machine

/-- Settles O28: a GEN command and RELEASE both come to the test of VALID. -/
theorem nothingElseRunsWithoutAnInstance : Obligations.NothingElseRunsWithoutAnInstance := by
  intro i s hwf hi hu hv
  rcases Instr.cases_gen i with ⟨v, l, rfl⟩ | ⟨v, n, rfl⟩ | rfl
  · exact absurd rfl (hi v l)
  · have hn : n ≠ 0#26 := (Instr.gen_wellFormed_iff v n).1 hwf
    rw [exec_gen, generate_of_not_valid _ v n hv, if_neg hn, hu]
    rfl
  · rw [exec_release, releaseInstance_of_not_valid hv, hu]
    rfl

/-- Settles O29: power-on is a state without an instance whose table no one has broken. -/
theorem powerOnHasNoInstance : Obligations.PowerOnHasNoInstance :=
  ⟨rfl, fun i hwf hi => nothingElseRunsWithoutAnInstance i State.reset hwf hi rfl rfl⟩

/-- Settles O43: VALID is 0 and the empty spaces are in canonical form. -/
theorem invariantHoldsAtPowerOn : Obligations.InvariantHoldsAtPowerOn :=
  Inv.of_not_valid (fun sp => by cases sp <;> exact Memory.wf_nil) rfl

end Sys2Proof.Safety
end

section
/-! ## The constants of an instance

A GEN command writes PHASE, PREVOUT, the latches and OUT, a host act the spaces: neither touches the constants (R29). -/

namespace Sys2Proof.Safety

open Sys2Proof.Machine

/-- From `s` to `t` the constants, the binding and VALID are kept (R29). -/
structure KeepsInstance (s t : State) : Prop where
  cpsToInc : t.cpsToInc = s.cpsToInc
  radToInc : t.radToInc = s.radToInc
  loMask : t.loMask = s.loMask
  variant : t.variant = s.variant
  ls : t.ls = s.ls
  tabRef : t.tabRef = s.tabRef
  valid : t.valid = s.valid

theorem KeepsInstance.refl (s : State) : KeepsInstance s s :=
  ⟨rfl, rfl, rfl, rfl, rfl, rfl, rfl⟩

theorem KeepsInstance.of_withHost {s t : State} {acts : List HostAct} (h : KeepsInstance (s.withHost acts) t) :
    KeepsInstance s t :=
  ⟨h.cpsToInc, h.radToInc, h.loMask, h.variant, h.ls, h.tabRef, h.valid⟩

theorem KeepsInstance.hostWrites (s : State) (sp : Space) (m : Memory) : KeepsInstance s (s.hostWrites sp m) := by
  constructor <;> simp

theorem KeepsInstance.of_routine {c : Config} {v : Variant} {emit : Bool} {n : Nat} {s t : State}
    (h : routine c v emit n s = some t) : KeepsInstance s t := by
  obtain ⟨b, P, Y, -, -, ht, -⟩ := routine_next h
  rw [ht]
  constructor <;> simp

theorem KeepsInstance.of_generate {c : Config} {v : Variant} {n : BitVec 26} {s t : State}
    (h : generate c v n s = .next t) : KeepsInstance s t := by
  obtain ⟨-, -, -, -, -, hr⟩ := generate_next.1 h
  exact .of_routine hr

theorem KeepsInstance.of_exec {i : Instr} {s t : State} (hrel : i ≠ .release) (hcon : ∀ v l, i ≠ .construct v l)
    (h : exec i s = .next t) : KeepsInstance s t := by
  rcases Instr.cases_gen i with ⟨v, l, rfl⟩ | ⟨v, n, rfl⟩ | rfl
  · exact absurd rfl (hcon v l)
  · rw [exec_gen] at h
    exact .of_generate h
  · exact absurd rfl hrel

/-- Settles O42: by the kind of the host's act. -/
theorem constantsNeverChangeWithinAnInstance : Obligations.ConstantsNeverChangeWithinAnInstance := by
  intro s t hv hcmd hstep
  have h : KeepsInstance s t := by
    rcases step_next hstep with
      ⟨-, rfl⟩ | ⟨w, rest, i, hh, hd, he⟩ | ⟨sp, xs, rest, -, rfl⟩ | ⟨sp, k, v, rest, -, rfl⟩
    · exact .refl t
    · obtain ⟨hrel, hcon⟩ := hcmd w rest i hh hd
      exact (KeepsInstance.of_exec hrel hcon he).of_withHost
    · exact (KeepsInstance.hostWrites _ sp _).of_withHost
    · exact (KeepsInstance.hostWrites _ sp _).of_withHost
  exact ⟨h.cpsToInc, h.radToInc, h.loMask, h.variant, h.ls, h.tabRef, h.valid.trans hv⟩

end Sys2Proof.Safety
end

section
/-! ## Registers of no instance are never observed

CONSTRUCT overwrites every register before it reads one, and every other command stops at the test of VALID: so from two
indistinct states a command has the very same outcome. The host's acts keep the states indistinct, and a step relation
that respects a relation of states is followed by the runs. -/

namespace Sys2Proof.Safety

open Sys2Proof.Machine

/-! ### Runs that go alike -/

theorem outcomesAlike_refl {R : State → State → Prop} (hR : ∀ s, R s s) (x : Host.Outcome State Fault Refusal) :
    outcomesAlike R x x := by
  cases x with
  | next s => exact hR s
  | fault r => rfl
  | refused r => rfl

/-- The two ways outcomes can be alike: the machine has no fault (R11). -/
theorem outcomesAlike_cases {R : State → State → Prop} {x y : Host.Outcome State Fault Refusal}
    (h : outcomesAlike R x y) :
    (∃ s t, x = .next s ∧ y = .next t ∧ R s t) ∨ ∃ r, x = .refused r ∧ y = .refused r :=
  match x, y, h with
  | .next s, .next t, h => .inl ⟨s, t, rfl, rfl, h⟩
  | .refused r, .refused _, rfl => .inr ⟨r, rfl, rfl⟩

/-- A relation every step respects is respected by every run. -/
theorem run_alike_of_step_alike {R : State → State → Prop}
    (hstep : ∀ s t, R s t → outcomesAlike R (step s) (step t)) (m : Nat) {s t : State} (h : R s t) :
    outcomesAlike R (Host.Core.run Sys2Proof.core m s) (Host.Core.run Sys2Proof.core m t) := by
  induction m generalizing s t with
  | zero => exact h
  | succ m ih =>
    rcases outcomesAlike_cases (hstep s t h) with ⟨s', t', es, et, h'⟩ | ⟨r, es, et⟩
    · rw [core_run_next m es, core_run_next m et]
      exact ih h'
    · rw [core_run_refused m es, core_run_refused m et]
      rfl

/-! ### States that differ in the registers only -/

theorem sameButRegisters_iff {s t : State} :
    sameButRegisters s t ↔ (∀ sp, t.space sp = s.space sp) ∧ t.host = s.host ∧ t.tabMutated = s.tabMutated ∧
      t.unsetDraws = s.unsetDraws := by
  constructor
  · rintro ⟨htab, hfin, hpin, hbin, hcfg, hout, hrest⟩
    refine ⟨fun sp => ?_, hrest⟩
    cases sp <;> assumption
  · rintro ⟨hsp, hrest⟩
    exact ⟨hsp .tab, hsp .fin, hsp .pin, hsp .bin, hsp .cfg, hsp .out, hrest⟩

theorem sameButRegisters.withHost {s t : State} (h : sameButRegisters s t) (acts : List HostAct) :
    sameButRegisters (s.withHost acts) (t.withHost acts) := by
  obtain ⟨htab, hfin, hpin, hbin, hcfg, hout, -, hmut, hdraws⟩ := h
  exact ⟨htab, hfin, hpin, hbin, hcfg, hout, rfl, hmut, hdraws⟩

/-- Whether a host write breaks the table's contract depends on VALID (R51), so VALID has to agree. -/
theorem sameButRegisters.hostWrites {s t : State} (h : sameButRegisters s t) (hv : t.valid = s.valid) (sp : Space)
    (m : Memory) : sameButRegisters (s.hostWrites sp m) (t.hostWrites sp m) := by
  rw [sameButRegisters_iff] at h ⊢
  obtain ⟨hspace, hhost, hmut, hdraws⟩ := h
  refine ⟨fun q => ?_, by simp [hhost], by simp [hmut, hv], by simp [hdraws]⟩
  simp only [State.hostWrites_space, State.withSpace_space, hspace]

/-- CONSTRUCT sets every register before the warm-up reads one (R69). -/
theorem sameButRegisters.constructed_eq {s t : State} (h : sameButRegisters s t) (c : Config) (var : Variant)
    (ls : BitVec 5) (T f0 p0 : NumVal) : t.constructed c var ls T f0 p0 = s.constructed c var ls T f0 p0 := by
  obtain ⟨htab, hfin, hpin, hbin, hcfg, hout, hhost, hmut, hdraws⟩ := h
  rw [State.constructed, State.constructed, htab, hfin, hpin, hbin, hcfg, hout, hhost, hmut, hdraws]

/-- The outcome of CONSTRUCT does not depend on any register (R73, R119). -/
theorem sameButRegisters.construct_eq {s t : State} (h : sameButRegisters s t) (c : Config) (var : Variant)
    (ls : BitVec 5) : construct c var ls t = construct c var ls s := by
  have hcon := h.constructed_eq c var ls
  obtain ⟨htab, hfin, hpin, hbin, hcfg, -, -, hmut, -⟩ := h
  unfold construct readCfg readFin readPin constructSupplied
  rw [htab, hfin, hpin, hbin, hcfg, hmut]
  simp only [hcon]

/-- Without an instance the outcome of every command is independent of the registers (R24, R31, R33). -/
theorem sameButRegisters.exec_eq {s t : State} (h : sameButRegisters s t) (hs : s.valid = false)
    (ht : t.valid = false) (i : Instr) : exec i t = exec i s := by
  obtain ⟨-, -, hmut, -⟩ := sameButRegisters_iff.1 h
  rcases Instr.cases_gen i with ⟨v, l, rfl⟩ | ⟨v, n, rfl⟩ | rfl
  · rw [exec_construct, exec_construct, h.construct_eq]
  · rw [exec_gen, exec_gen, generate_of_not_valid _ v n hs, generate_of_not_valid _ v n ht, hmut]
  · rw [exec_release, exec_release, releaseInstance_of_not_valid hs, releaseInstance_of_not_valid ht, hmut]

/-! ### Indistinct states -/

theorem indistinct.refl (s : State) : indistinct s s :=
  .inl rfl

theorem indistinct.space_eq {s t : State} (h : indistinct s t) (sp : Space) : t.space sp = s.space sp := by
  rcases h with rfl | ⟨-, -, h⟩
  · rfl
  · obtain ⟨hspace, -⟩ := sameButRegisters_iff.1 h
    exact hspace sp

theorem indistinct.host_eq {s t : State} (h : indistinct s t) : t.host = s.host := by
  rcases h with rfl | ⟨-, -, h⟩
  · rfl
  · obtain ⟨-, hhost, -⟩ := sameButRegisters_iff.1 h
    exact hhost

theorem indistinct.withHost {s t : State} (h : indistinct s t) (acts : List HostAct) :
    indistinct (s.withHost acts) (t.withHost acts) := by
  rcases h with rfl | ⟨hs, ht, h⟩
  · exact .refl _
  · exact .inr ⟨hs, ht, h.withHost acts⟩

theorem indistinct.hostWrites {s t : State} (h : indistinct s t) (sp : Space) (m : Memory) :
    indistinct (s.hostWrites sp m) (t.hostWrites sp m) := by
  rcases h with rfl | ⟨hs, ht, h⟩
  · exact .refl _
  · exact .inr ⟨by simpa using hs, by simpa using ht, h.hostWrites (ht.trans hs.symm) sp m⟩

theorem indistinct.exec_eq {s t : State} (h : indistinct s t) (i : Instr) : exec i t = exec i s := by
  rcases h with rfl | ⟨hs, ht, h⟩
  · rfl
  · exact h.exec_eq hs ht i

theorem indistinct.receive_eq {s t : State} (h : indistinct s t) (w : Word) : receive w t = receive w s := by
  cases hd : decode w with
  | ok i => rw [receive_ok t hd, receive_ok s hd, h.exec_eq i]
  | error r => rw [receive_error t hd, receive_error s hd]

theorem indistinct.perform {s t : State} (h : indistinct s t) (a : HostAct) :
    outcomesAlike indistinct (perform a s) (perform a t) := by
  cases a with
  | command w =>
    simp only [Machine.perform, h.receive_eq w]
    exact outcomesAlike_refl .refl _
  | commandEarly w => rfl
  | place sp xs => exact h.hostWrites sp _
  | poke sp k v =>
    simp only [Machine.perform, h.space_eq sp]
    exact h.hostWrites sp _

theorem indistinct.step {s t : State} (h : indistinct s t) : outcomesAlike indistinct (step s) (step t) := by
  have ht := h.host_eq
  cases hs : s.host with
  | nil =>
    simp only [Machine.step, ht, hs]
    exact h
  | cons a rest =>
    simp only [Machine.step, ht, hs]
    exact (h.withHost rest).perform a

/-- Settles O46: a step keeps states indistinct, so a run does. -/
theorem unconstructedRegistersAreNeverObserved : Obligations.UnconstructedRegistersAreNeverObserved :=
  fun m _ _ h => run_alike_of_step_alike (fun _ _ => indistinct.step) m h

end Sys2Proof.Safety
end

section
/-! ## What a command writes

Only the routine's `writeOut` reaches a space, so a command writes OUT alone, and a GEN of `n` samples elements 0 to
`n - 1` of it (R34, R40). -/

namespace Sys2Proof.Safety

open Sys2Proof.Machine

/-- From `s` to `t` the spaces but OUT, the host's acts and the record of the table's contract are kept. -/
structure WritesOutOnly (s t : State) : Prop where
  space : ∀ sp, sp ≠ .out → t.space sp = s.space sp
  host : t.host = s.host
  tabMutated : t.tabMutated = s.tabMutated

theorem WritesOutOnly.of_constructed {c : Config} {v : Variant} {l : BitVec 5} {T f p : NumVal} {s t : State}
    (h : WritesOutOnly (s.constructed c v l T f p) t) : WritesOutOnly s t :=
  ⟨fun sp hsp => (h.space sp hsp).trans (s.constructed_space c v l T f p sp), h.host, h.tabMutated⟩

theorem WritesOutOnly.unset (s : State) : WritesOutOnly s s.unset :=
  ⟨fun sp _ => s.unset_space sp, rfl, rfl⟩

/-- The routine writes registers and OUT (R92, R90). -/
theorem WritesOutOnly.of_routine {c : Config} {v : Variant} {emit : Bool} {n : Nat} {s t : State}
    (h : routine c v emit n s = some t) : WritesOutOnly s t := by
  obtain ⟨b, P, Y, -, -, ht, -⟩ := routine_next h
  rw [ht]
  exact ⟨fun sp hsp => by simp [State.withSpace_space, hsp], by simp, by simp⟩

theorem WritesOutOnly.of_generate {c : Config} {v : Variant} {n : BitVec 26} {s t : State}
    (h : generate c v n s = .next t) : WritesOutOnly s t := by
  obtain ⟨-, -, -, -, -, hr⟩ := generate_next.1 h
  exact .of_routine hr

theorem WritesOutOnly.of_construct {c : Config} {v : Variant} {l : BitVec 5} {s t : State}
    (h : construct c v l s = .next t) : WritesOutOnly s t := by
  obtain ⟨-, -, -, T, f0, p0, -, -, -, -, hr⟩ := construct_next.1 h
  exact (WritesOutOnly.of_routine hr).of_constructed

theorem WritesOutOnly.of_exec {i : Instr} {s t : State} (h : exec i s = .next t) : WritesOutOnly s t := by
  rcases Instr.cases_gen i with ⟨v, l, rfl⟩ | ⟨v, n, rfl⟩ | rfl
  · exact .of_construct h
  · rw [exec_gen] at h
    exact .of_generate h
  · obtain ⟨-, -, rfl⟩ := releaseInstance_next.1 h
    exact .unset s

/-- The warm-up does not write OUT (R71). -/
theorem construct_out {c : Config} {v : Variant} {l : BitVec 5} {s t : State} (h : construct c v l s = .next t) :
    t.out = s.out := by
  obtain ⟨-, -, -, T, f0, p0, -, -, -, -, hr⟩ := construct_next.1 h
  obtain ⟨b, P, Y, -, -, -, hsilent, -⟩ := routine_next hr
  exact hsilent rfl

theorem releaseInstance_out {s t : State} (h : releaseInstance s = .next t) : t.out = s.out := by
  obtain ⟨-, -, rfl⟩ := releaseInstance_next.1 h
  rfl

/-- A GEN command of `n` samples leaves OUT alone from element `n` on (R40, R44). -/
theorem read_out_of_generate {c : Config} {v : Variant} {n : BitVec 26} {s t : State}
    (h : generate c v n s = .next t) {k : Nat} (hk : n.toNat ≤ k) : Memory.read t.out k = Memory.read s.out k := by
  obtain ⟨-, -, -, -, -, hr⟩ := generate_next.1 h
  obtain ⟨b, P, Y, -, -, -, -, hemit, -⟩ := routine_next hr
  obtain ⟨-, hrest⟩ := hemit rfl
  exact hrest k hk

/-- Settles O41: the frame of every command, then OUT by the command. -/
theorem commandsWriteOutOnly : Obligations.CommandsWriteOutOnly := by
  intro i s t h
  obtain ⟨hspace, hhost, hmut⟩ := WritesOutOnly.of_exec h
  refine ⟨hspace, hhost, hmut, ?_, ?_⟩
  · rintro (rfl | ⟨v, l, rfl⟩)
    · exact releaseInstance_out h
    · exact construct_out h
  · rintro v n rfl k hk
    rw [exec_gen] at h
    exact read_out_of_generate h hk

end Sys2Proof.Safety
end

section
/-! ## A broken table contract

A host write of TAB while VALID is 1 sets the record (R51); no command writes it and no host write clears it; every
well-formed command tests it first (R107, R125; log 6). -/

namespace Sys2Proof.Machine

theorem step_place {s : State} {sp : Space} {xs : List NumVal} {rest : List HostAct} (h : s.host = .place sp xs :: rest) :
    step s = .next ((s.withHost rest).hostWrites sp (Memory.ofList xs)) := by
  simp only [step, h, perform]

theorem step_poke {s : State} {sp : Space} {k : Nat} {v : NumVal} {rest : List HostAct}
    (h : s.host = .poke sp k v :: rest) :
    step s = .next ((s.withHost rest).hostWrites sp (Memory.write (s.space sp) k v)) := by
  simp only [step, h, perform, State.withHost_space]

theorem generate_of_tabMutated {c : Config} {v : Variant} {n : BitVec 26} {s : State} (hn : n ≠ 0#26)
    (hu : s.tabMutated = true) : generate c v n s = .refused .tableMutated := by
  rw [generate, if_neg hn, if_pos hu]

theorem construct_of_tabMutated {c : Config} {v : Variant} {l : BitVec 5} {s : State} (hu : s.tabMutated = true) :
    construct c v l s = .refused .tableMutated := by
  rw [construct, if_pos hu]

theorem releaseInstance_of_tabMutated {s : State} (hu : s.tabMutated = true) :
    releaseInstance s = .refused .tableMutated := by
  rw [releaseInstance, if_pos hu]

end Sys2Proof.Machine

namespace Sys2Proof.Safety

open Sys2Proof.Machine

/-- A host write of TAB while VALID is 1 is on record (R51). -/
theorem hostWrites_tab_tabMutated {s : State} (m : Memory) (hv : s.valid = true) :
    (s.hostWrites .tab m).tabMutated = true := by
  rw [State.hostWrites_tabMutated, hv]
  exact Bool.or_true _

/-- A host write takes nothing off the record. -/
theorem hostWrites_tabMutated_of_tabMutated {s : State} (sp : Space) (m : Memory) (hu : s.tabMutated = true) :
    (s.hostWrites sp m).tabMutated = true := by
  rw [State.hostWrites_tabMutated, hu, Bool.true_or]

/-- No step forgets the record: by the kind of the host's act. -/
theorem step_keeps_tabMutated {s t : State} (hu : s.tabMutated = true) (h : step s = .next t) : t.tabMutated = true := by
  rcases step_next h with ⟨-, rfl⟩ | ⟨w, rest, i, -, -, he⟩ | ⟨sp, xs, rest, -, rfl⟩ | ⟨sp, k, v, rest, -, rfl⟩
  · exact hu
  · exact (WritesOutOnly.of_exec he).tabMutated.trans hu
  · exact hostWrites_tabMutated_of_tabMutated sp _ hu
  · exact hostWrites_tabMutated_of_tabMutated sp _ hu

theorem exec_of_tabMutated {i : Instr} {s : State} (hwf : i.wellFormed = true) (hu : s.tabMutated = true) :
    exec i s = .refused .tableMutated := by
  rcases Instr.cases_gen i with ⟨v, l, rfl⟩ | ⟨v, n, rfl⟩ | rfl
  · exact construct_of_tabMutated hu
  · rw [exec_gen]
    exact generate_of_tabMutated ((Instr.gen_wellFormed_iff v n).1 hwf) hu
  · exact releaseInstance_of_tabMutated hu

/-- Settles O14: the two writes that set the record, the step that keeps it, the commands that test it. -/
theorem tableWriteRefusesEveryLaterCommand : Obligations.TableWriteRefusesEveryLaterCommand :=
  ⟨fun _ _ _ hv h => ⟨_, step_place h, hostWrites_tab_tabMutated _ hv⟩,
    fun _ _ _ _ hv h => ⟨_, step_poke h, hostWrites_tab_tabMutated _ hv⟩,
    fun _ _ => step_keeps_tabMutated, fun _ _ => exec_of_tabMutated⟩

end Sys2Proof.Safety
end

section
/-! ## A missing element -/

namespace Sys2Proof.Machine

/-- What is not supplied is an element without a value (R42). -/
theorem Memory.supplies_eq_false_iff (m : Memory) (n : Nat) :
    Memory.supplies m n = false ↔ ∃ k, k < n ∧ Memory.read m k = none := by
  rw [← Bool.not_eq_true, Memory.supplies_iff]
  simp [Option.eq_none_iff_forall_ne_some]

/-- The buffer check of R94 fails on a missing element of one of the four buffers. -/
theorem genSupplied_eq_false_iff (v : Variant) (n : Nat) (s : State) :
    genSupplied v n s = false ↔
      Memory.read s.bin 0 = none ∨ (∃ i, i < elementsOf v.fk n ∧ Memory.read s.fin i = none) ∨
        (∃ i, i < elementsOf v.pk n ∧ Memory.read s.pin i = none) ∨ ∃ i, i < n ∧ Memory.read s.out i = none := by
  simp only [genSupplied, Bool.and_eq_false_iff, Memory.supplies_eq_false_iff, Nat.lt_one_iff, exists_eq_left, or_assoc]

/-- A GEN command of the bound variant comes to the buffer check, and stops there if it fails (R94). -/
theorem generate_of_not_supplied {c : Config} {v : Variant} {n : BitVec 26} {s : State} (hn : n ≠ 0#26)
    (hu : s.tabMutated = false) (hv : s.valid = true) (hvar : s.variant = v) (hs : genSupplied v n.toNat s = false) :
    generate c v n s = .refused .shortBuffer := by
  simp only [generate, hn, hu, hv, hvar, hs, Bool.false_eq_true, if_false, if_true]

end Sys2Proof.Machine

namespace Sys2Proof.Safety

open Sys2Proof.Machine

/-- Settles O35: the missing element fails the buffer check. -/
theorem missingElementIsRefused : Obligations.MissingElementIsRefused := by
  intro v n s hn hu hv hvar hmissing
  rw [exec_gen]
  exact generate_of_not_supplied hn hu hv hvar ((genSupplied_eq_false_iff v n.toNat s).2 hmissing)

end Sys2Proof.Safety
end

section
/-! ## The fields of a word

The three formats (R55 to R57) are ways to cut one word into its fields; a word is given by its fields, and every claim
about the decoder and the encoder below goes through that. -/

namespace Sys2Proof

/-- Two words cut at the same bit are equal exactly if their parts are. -/
theorem append_eq_append_iff {m n : Nat} {x x' : BitVec m} {y y' : BitVec n} :
    x ++ y = x' ++ y' ↔ x = x' ∧ y = y' := by
  constructor
  · intro h
    have hhigh := congrArg (BitVec.extractLsb' n m) h
    have hlow := congrArg (BitVec.extractLsb' 0 n) h
    simp only [BitVec.extractLsb'_append_eq_left] at hhigh
    simp only [BitVec.extractLsb'_append_eq_right] at hlow
    exact ⟨hhigh, hlow⟩
  · rintro ⟨rfl, rfl⟩
    rfl

/-- Format G (R56): OPC, VAR and N. -/
theorem Word.eq_formatG (w : Word) : (Word.opc w ++ Word.var w) ++ Word.n w = w := by
  have hhigh : Word.opc w ++ Word.var w = w.extractLsb' 26 6 :=
    BitVec.extractLsb'_append_extractLsb'_eq_extractLsb' rfl
  rw [hhigh]
  exact BitVec.extractLsb'_append_extractLsb'

/-- Format C (R55): OPC, VAR, LS and the bits that must be zero. -/
theorem Word.eq_formatC (w : Word) : ((Word.opc w ++ Word.var w) ++ Word.ls w) ++ w.extractLsb' 0 21 = w := by
  have hhigh : Word.opc w ++ Word.var w = w.extractLsb' 26 6 :=
    BitVec.extractLsb'_append_extractLsb'_eq_extractLsb' rfl
  have hhigher : w.extractLsb' 26 6 ++ Word.ls w = w.extractLsb' 21 11 :=
    BitVec.extractLsb'_append_extractLsb'_eq_extractLsb' rfl
  rw [hhigh, hhigher]
  exact BitVec.extractLsb'_append_extractLsb'

/-- Format R (R57): OPC and the bits that must be zero. -/
theorem Word.eq_formatR (w : Word) : Word.opc w ++ w.extractLsb' 0 28 = w :=
  BitVec.extractLsb'_append_extractLsb'

/-! ### The fields as arithmetic on the word -/

theorem Word.opc_eq_iff (w : Word) (k : BitVec 4) : Word.opc w = k ↔ w.toNat / 2 ^ 28 = k.toNat := by
  have hlt : w.toNat / 2 ^ 28 < 2 ^ 4 := Nat.div_lt_of_lt_mul w.isLt
  rw [← BitVec.toNat_inj, Word.opc, BitVec.extractLsb'_toNat, Nat.shiftRight_eq_div_pow, Nat.mod_eq_of_lt hlt]

theorem Word.ls_toNat (w : Word) : (Word.ls w).toNat = w.toNat / 2 ^ 21 % 2 ^ 5 := by
  rw [Word.ls, BitVec.extractLsb'_toNat, Nat.shiftRight_eq_div_pow]

theorem Word.n_toNat (w : Word) : (Word.n w).toNat = w.toNat % 2 ^ 26 := by
  rw [Word.n, BitVec.extractLsb'_toNat, Nat.shiftRight_zero]

theorem Word.low_eq_zero_iff (w : Word) (m : Nat) : w.extractLsb' 0 m = 0#m ↔ w.toNat % 2 ^ m = 0 := by
  rw [← BitVec.toNat_inj, BitVec.extractLsb'_toNat, Nat.shiftRight_zero, BitVec.toNat_zero]

/-! ### The variant -/

/-- The four variants and the four codes of R58 are in one-to-one correspondence. -/
theorem Variant.ofCode_eq_iff (b : BitVec 2) (v : Variant) : Variant.ofCode b = v ↔ b = v.code := by
  revert b
  cases v <;> decide

@[simp] theorem Variant.ofCode_code (v : Variant) : Variant.ofCode v.code = v :=
  (Variant.ofCode_eq_iff v.code v).2 rfl

/-- FK is bit 27 of the word, PK bit 26 (R58). -/
theorem Variant.bits_of_var_eq_code {w : Word} {v : Variant} (h : Word.var w = v.code) :
    v.fk = w.getLsbD 27 ∧ v.pk = w.getLsbD 26 := by
  have hbit (i : Nat) (hi : i < 2) : v.code.getLsbD i = w.getLsbD (26 + i) := by
    rw [← h, Word.var, BitVec.getLsbD_extractLsb', decide_eq_true hi, Bool.true_and]
  constructor
  · rw [← hbit 1 (by decide)]
    cases v <;> rfl
  · rw [← hbit 0 (by decide)]
    cases v <;> rfl

/-! ### The word of a command, field by field -/

theorem encode_gen (v : Variant) (n : BitVec 26) : encode (Instr.gen v n) = (2#4 ++ v.code) ++ n := by
  cases v <;> rfl

theorem encode_construct_eq_iff {v : Variant} {l : BitVec 5} {w : Word} :
    encode (.construct v l) = w ↔
      Word.opc w = 1#4 ∧ Word.var w = v.code ∧ Word.ls w = l ∧ w.extractLsb' 0 21 = 0#21 := by
  conv_lhs =>
    rw [encode, ← Word.eq_formatC w, append_eq_append_iff, append_eq_append_iff, append_eq_append_iff]
  simp only [eq_comm, and_assoc]

theorem encode_gen_eq_iff {v : Variant} {n : BitVec 26} {w : Word} :
    encode (Instr.gen v n) = w ↔ Word.opc w = 2#4 ∧ Word.var w = v.code ∧ Word.n w = n := by
  conv_lhs => rw [encode_gen, ← Word.eq_formatG w, append_eq_append_iff, append_eq_append_iff]
  simp only [eq_comm, and_assoc]

theorem encode_release_eq_iff {w : Word} :
    encode .release = w ↔ Word.opc w = 3#4 ∧ w.extractLsb' 0 28 = 0#28 := by
  conv_lhs => rw [encode, ← Word.eq_formatR w, append_eq_append_iff]
  simp only [eq_comm]

/-! ### The decoder, one equation per OPC (R67) -/

theorem decode_of_opc_construct {w : Word} (h : Word.opc w = 1#4) :
    decode w =
      if w.extractLsb' 0 21 = 0#21 then .ok (.construct (Variant.ofCode (Word.var w)) (Word.ls w))
      else .error .zeroField := by
  rw [decode, if_pos h]

theorem decode_of_opc_gen {w : Word} (h : Word.opc w = 2#4) :
    decode w =
      if Word.n w = 0#26 then .error .emptyBlock
      else .ok (Instr.gen (Variant.ofCode (Word.var w)) (Word.n w)) := by
  rw [decode, if_neg (by rw [h]; decide), if_pos h]

theorem decode_of_opc_release {w : Word} (h : Word.opc w = 3#4) :
    decode w = if w.extractLsb' 0 28 = 0#28 then .ok .release else .error .zeroField := by
  rw [decode, if_neg (by rw [h]; decide), if_neg (by rw [h]; decide), if_pos h]

theorem decode_of_opc_other {w : Word} (h1 : Word.opc w ≠ 1#4) (h2 : Word.opc w ≠ 2#4) (h3 : Word.opc w ≠ 3#4) :
    decode w = .error .opcode := by
  rw [decode, if_neg h1, if_neg h2, if_neg h3]

end Sys2Proof
end

section
/-! ## Decode and encode

The fields of the word of a command choose the branch of the decoder that gives the command back, and each branch that
gives a command has tested every bit the command does not carry. -/

namespace Sys2Proof

/-- Encode, then decode (R67). -/
theorem decode_encode {i : Instr} (hwf : i.wellFormed = true) : decode (encode i) = .ok i := by
  rcases Instr.cases_gen i with ⟨v, l, rfl⟩ | ⟨v, n, rfl⟩ | rfl
  · obtain ⟨hopc, hvar, hls, hzero⟩ := encode_construct_eq_iff.1 (Eq.refl (encode (.construct v l)))
    rw [decode_of_opc_construct hopc, if_pos hzero, hvar, hls, Variant.ofCode_code]
  · obtain ⟨hopc, hvar, hn⟩ := encode_gen_eq_iff.1 (Eq.refl (encode (Instr.gen v n)))
    have hn0 : n ≠ 0#26 := (Instr.gen_wellFormed_iff v n).1 hwf
    rw [decode_of_opc_gen hopc, hn, if_neg hn0, hvar, Variant.ofCode_code]
  · obtain ⟨hopc, hzero⟩ := encode_release_eq_iff.1 (Eq.refl (encode .release))
    rw [decode_of_opc_release hopc, if_pos hzero]

/-- Decode, then encode: the branches of the decoder that give a command. -/
theorem encode_of_decode {w : Word} {i : Instr} (h : decode w = .ok i) : encode i = w ∧ i.wellFormed = true := by
  have hvar : Word.var w = (Variant.ofCode (Word.var w)).code := (Variant.ofCode_eq_iff _ _).1 rfl
  unfold decode at h
  split_ifs at h with hconstruct hzero hgen hn hrelease hzero
  · cases h
    exact ⟨encode_construct_eq_iff.2 ⟨hconstruct, hvar, rfl, hzero⟩, rfl⟩
  · cases h
    exact ⟨encode_gen_eq_iff.2 ⟨hgen, hvar, rfl⟩, (Instr.gen_wellFormed_iff _ _).2 hn⟩
  · cases h
    exact ⟨encode_release_eq_iff.2 ⟨hrelease, hzero⟩, rfl⟩

/-- What the decoder does, in terms of the encoder. -/
theorem decode_eq_ok_iff {w : Word} {i : Instr} : decode w = .ok i ↔ encode i = w ∧ i.wellFormed = true := by
  refine ⟨encode_of_decode, ?_⟩
  rintro ⟨rfl, hwf⟩
  exact decode_encode hwf

theorem decode_eq_construct_iff {w : Word} {v : Variant} {l : BitVec 5} :
    decode w = .ok (.construct v l) ↔
      Word.opc w = 1#4 ∧ Word.var w = v.code ∧ Word.ls w = l ∧ w.extractLsb' 0 21 = 0#21 := by
  rw [decode_eq_ok_iff, encode_construct_eq_iff]
  exact and_iff_left rfl

theorem decode_eq_gen_iff {w : Word} {v : Variant} {n : BitVec 26} :
    decode w = .ok (Instr.gen v n) ↔ (Word.opc w = 2#4 ∧ Word.var w = v.code ∧ Word.n w = n) ∧ n ≠ 0#26 := by
  rw [decode_eq_ok_iff, encode_gen_eq_iff, Instr.gen_wellFormed_iff]

end Sys2Proof

namespace Sys2Proof.Safety

/-- Settles O1: the fields of the command's word, per format. -/
theorem decodeOfEncodeIsTheCommand : Obligations.DecodeOfEncodeIsTheCommand :=
  fun _ hwf => decode_encode hwf

/-- Settles O2: the branches of the decoder that give a command. -/
theorem decodedWordIsTheCommandsWord : Obligations.DecodedWordIsTheCommandsWord :=
  fun _ _ h => encode_of_decode h

/-- Settles O4: the decoded command's fields are the word's, each of which is arithmetic on the word. -/
theorem fieldsAreReadAtTheirBits : Obligations.FieldsAreReadAtTheirBits := by
  refine fun w => ⟨fun v l h => ?_, fun v n h => ?_⟩
  · obtain ⟨-, hvar, rfl, -⟩ := decode_eq_construct_iff.1 h
    exact ⟨Word.ls_toNat w, Variant.bits_of_var_eq_code hvar⟩
  · obtain ⟨⟨-, hvar, rfl⟩, -⟩ := decode_eq_gen_iff.1 h
    exact ⟨Word.n_toNat w, Variant.bits_of_var_eq_code hvar⟩

/-- Settles O9: each of the words is the word of its command. -/
theorem workedWordsDecode : Obligations.WorkedWordsDecode := by
  unfold Obligations.WorkedWordsDecode
  simp only [decode_eq_ok_iff]
  decide

end Sys2Proof.Safety
end

section
/-! ## The opcode table (R67)

A mask keeps some of a word's fields and clears the others. -/

namespace Sys2Proof

/-- The mask of the CONSTRUCT row keeps OPC and the bits that must be zero. -/
theorem and_constructMask (a : BitVec 4) (b : BitVec 2) (l : BitVec 5) (z : BitVec 21) :
    (((a ++ b) ++ l) ++ z) &&& 0xF01FFFFF#32 = ((a ++ 0#2) ++ 0#5) ++ z := by
  have hmask : 0xF01FFFFF#32 = ((BitVec.allOnes 4 ++ 0#2) ++ 0#5) ++ BitVec.allOnes 21 := by decide
  calc
    _ = (((a ++ b) ++ l) &&& ((BitVec.allOnes 4 ++ 0#2) ++ 0#5)) ++ (z &&& BitVec.allOnes 21) := by
      rw [hmask]
      exact BitVec.and_append
    _ = _ := by simp only [BitVec.and_append, BitVec.and_allOnes, BitVec.and_zero]

/-- The bits that the mask of a GEN row clears are N. -/
theorem and_lengthMask (a : BitVec 6) (n : BitVec 26) : (a ++ n) &&& 0x03FFFFFF#32 = 0#6 ++ n := by
  have hmask : 0x03FFFFFF#32 = 0#6 ++ BitVec.allOnes 26 := by decide
  calc
    _ = (a &&& 0#6) ++ (n &&& BitVec.allOnes 26) := by
      rw [hmask]
      exact BitVec.and_append
    _ = _ := by rw [BitVec.and_zero, BitVec.and_allOnes]

theorem Word.and_constructMask_eq_iff (w : Word) :
    w &&& 0xF01FFFFF#32 = 0x10000000#32 ↔ Word.opc w = 1#4 ∧ w.extractLsb' 0 21 = 0#21 := by
  have hvalue : 0x10000000#32 = ((1#4 ++ 0#2) ++ 0#5) ++ 0#21 := by decide
  conv_lhs => rw [← Word.eq_formatC w, and_constructMask, hvalue, append_eq_append_iff, append_eq_append_iff,
    append_eq_append_iff]
  simp only [and_true]

theorem Word.and_genMask_eq_iff (w : Word) (a : BitVec 4) (b : BitVec 2) :
    w &&& 0xFC000000#32 = (a ++ b) ++ 0#26 ↔ Word.opc w = a ∧ Word.var w = b := by
  conv_lhs => rw [← Word.eq_formatG w, Laws.and_genMask, append_eq_append_iff, append_eq_append_iff]
  simp only [and_true]

theorem Word.and_lengthMask_eq_zero_iff (w : Word) : w &&& 0x03FFFFFF#32 = 0#32 ↔ Word.n w = 0#26 := by
  have hzero : 0#32 = 0#6 ++ 0#26 := by decide
  conv_lhs => rw [← Word.eq_formatG w, and_lengthMask, hzero, append_eq_append_iff]
  simp only [true_and]

/-- The CONSTRUCT row: LS and VAR may hold anything. -/
theorem decodes_to_construct_iff (w : Word) :
    (∃ v l, decode w = .ok (.construct v l)) ↔ w &&& 0xF01FFFFF#32 = 0x10000000#32 := by
  rw [Word.and_constructMask_eq_iff]
  constructor
  · rintro ⟨v, l, h⟩
    obtain ⟨hopc, -, -, hzero⟩ := decode_eq_construct_iff.1 h
    exact ⟨hopc, hzero⟩
  · rintro ⟨hopc, hzero⟩
    exact ⟨_, _, (decode_of_opc_construct hopc).trans (if_pos hzero)⟩

/-- The four GEN rows, the row's value as `2#4 ++ v.code` above N: N may hold anything but 0 (R62). -/
theorem decodes_to_gen_iff (w : Word) (v : Variant) :
    (∃ n, decode w = .ok (Instr.gen v n)) ↔
      w &&& 0xFC000000#32 = (2#4 ++ v.code) ++ 0#26 ∧ w &&& 0x03FFFFFF#32 ≠ 0#32 := by
  rw [Word.and_genMask_eq_iff, Ne, Word.and_lengthMask_eq_zero_iff]
  constructor
  · rintro ⟨n, h⟩
    obtain ⟨⟨hopc, hvar, rfl⟩, hn⟩ := decode_eq_gen_iff.1 h
    exact ⟨⟨hopc, hvar⟩, hn⟩
  · rintro ⟨⟨hopc, hvar⟩, hn⟩
    exact ⟨Word.n w, decode_eq_gen_iff.2 ⟨⟨hopc, hvar, rfl⟩, hn⟩⟩

/-- The RELEASE row is one word. -/
theorem decodes_to_release_iff (w : Word) : decode w = .ok .release ↔ w = 0x30000000#32 := by
  have hword : encode .release = 0x30000000#32 := by decide
  rw [decode_eq_ok_iff, hword, eq_comm]
  exact and_iff_left rfl

end Sys2Proof

namespace Sys2Proof.Safety

/-- Settles O3: row by row. -/
theorem decodeFollowsTheOpcodeTable : Obligations.DecodeFollowsTheOpcodeTable := fun w =>
  ⟨decodes_to_construct_iff w, decodes_to_gen_iff w .aa, decodes_to_gen_iff w .ak, decodes_to_gen_iff w .ka,
    decodes_to_gen_iff w .kk, decodes_to_release_iff w⟩

end Sys2Proof.Safety
end

section
/-! ## Reserved words (R62 to R65)

The decoder's reason is the port's refusal, in every state. -/

namespace Sys2Proof.Machine

theorem decode_and_receive_of_error {w : Word} {r : ReservedWord} (s : State) (h : decode w = .error r) :
    decode w = .error r ∧ receive w s = .refused (.reserved r) :=
  ⟨h, receive_error s h⟩

end Sys2Proof.Machine

namespace Sys2Proof.Safety

open Sys2Proof.Machine

/-- Settles O6: OPC is none of 1, 2 and 3. -/
theorem reservedOpcodeIsRefused : Obligations.ReservedOpcodeIsRefused := by
  intro w s hopc
  have hother (k : BitVec 4) (hk : 1 ≤ k.toNat ∧ k.toNat ≤ 3) : Word.opc w ≠ k := by
    rw [Ne, Word.opc_eq_iff]
    omega
  exact decode_and_receive_of_error s
    (decode_of_opc_other (hother 1#4 (by decide)) (hother 2#4 (by decide)) (hother 3#4 (by decide)))

/-- Settles O7: the two formats with bits that must be zero. -/
theorem setReservedBitIsRefused : Obligations.SetReservedBitIsRefused := by
  rintro w s (⟨hopc, hset⟩ | ⟨hopc, hset⟩)
  · have hopc : Word.opc w = 1#4 := (Word.opc_eq_iff w 1#4).2 hopc
    have hset : w.extractLsb' 0 21 ≠ 0#21 := mt (Word.low_eq_zero_iff w 21).1 hset
    exact decode_and_receive_of_error s ((decode_of_opc_construct hopc).trans (if_neg hset))
  · have hopc : Word.opc w = 3#4 := (Word.opc_eq_iff w 3#4).2 hopc
    have hset : w.extractLsb' 0 28 ≠ 0#28 := mt (Word.low_eq_zero_iff w 28).1 hset
    exact decode_and_receive_of_error s ((decode_of_opc_release hopc).trans (if_neg hset))

/-- Settles O5: the decoder tests N first, and so does the GEN term's meaning (R94). -/
theorem emptyBlockIsRefused : Obligations.EmptyBlockIsRefused := by
  constructor
  · intro w s hopc hn
    have hopc : Word.opc w = 2#4 := (Word.opc_eq_iff w 2#4).2 hopc
    have hn : Word.n w = 0#26 := (Word.low_eq_zero_iff w 26).2 hn
    exact decode_and_receive_of_error s ((decode_of_opc_gen hopc).trans (if_pos hn))
  · intro v s
    rw [exec_gen, generate, if_pos rfl]

/-- Settles O8: the decoder's two answers. -/
theorem everyWordIsACommandOrRefused : Obligations.EveryWordIsACommandOrRefused := by
  intro w
  cases h : decode w with
  | ok i => exact .inl ⟨i, rfl, fun s => receive_ok s h⟩
  | error r => exact .inr ⟨r, rfl, fun s => receive_error s h⟩

end Sys2Proof.Safety
end

section
/-! ## The step and the command port -/

namespace Sys2Proof.Machine

theorem step_command {s : State} {w : Word} {rest : List HostAct} (h : s.host = .command w :: rest) :
    step s = receive w (s.withHost rest) := by
  simp only [step, h, perform]

/-- A word put first on the port is received by the state as it was. -/
theorem step_withFetchWord (s : State) (nbits w : Nat) :
    step (s.withFetchWord nbits w) = receive (tableWord nbits w) s :=
  step_command (s := s.withFetchWord nbits w) (w := tableWord nbits w) (State.withHost_host s _)

theorem decodeTableWord_eq_some_iff {nbits w : Nat} {i : Instr} :
    decodeTableWord nbits w = some i ↔ decode (tableWord nbits w) = .ok i := by
  unfold decodeTableWord
  cases decode (tableWord nbits w) with
  | ok j => simp only [Option.some.injEq, Except.ok.injEq]
  | error r => simp only [reduceCtorEq]

end Sys2Proof.Machine

namespace Sys2Proof.Safety

open Sys2Proof.Machine

/-- Settles O10: the step is the port's, which runs the decoded command. -/
theorem stepRunsTheDecodedCommand : Obligations.StepRunsTheDecodedCommand := by
  constructor
  · intro s w rest i hhost hdecode
    rw [step_command hhost, receive_ok _ hdecode]
  · intro s nbits w i hdecode
    rw [step_withFetchWord, receive_ok s (decodeTableWord_eq_some_iff.1 hdecode)]

end Sys2Proof.Safety
end

section
/-! ## CONSTRUCT's closed form and RELEASE

CONSTRUCT latches FIN[0] and PIN[0] and zeroes PHASE and PREVOUT before the warm-up, so the warm-up's one sample runs on
held scalars and without feedback: it adds the two truncated products of R72, and its latches store what is there
already. -/

namespace Sys2Proof.Machine

open Sys2Proof.Safety

/-! ### One sample on held scalars -/

/-- `TRUNC32(K × x)`: a held scalar's contribution to a lookup position (R72). -/
def scaledWord (c : Config) (K x : NumVal) : Word := trunc32 c (c.num.mul K x)

theorem truncatesTo_scaledWord (c : Config) (K x : NumVal) :
    TruncatesTo (c.num.val K * c.num.val x) (scaledWord c K x) := by
  rw [← NumSystem.mul_val]
  exact truncatesTo_trunc32 c _

/-- A held scalar has no ramp: the first sample of a block sees it scaled (R81). -/
theorem Source.select_ofScalar_held (c : Config) (x K : NumVal) (n : Nat) (element : Option NumVal) :
    (Source.ofScalar c x x K n).select c K element = some (c.num.mul K x) := by
  rw [Source.ofScalar, rampSetup_same K n rfl]
  rfl

/-- A silent last output gives no feedback: the combiner truncates the phase offset alone (R72, R83). -/
theorem phaseOffset_of_silent {c : Config} {prev : NumVal} (pinc radToInc k : NumVal) (h : c.num.val prev = 0) :
    phaseOffset c pinc radToInc (feedback c prev k) = trunc32 c pinc :=
  trunc32_congr (by rw [NumSystem.add_val, NumSystem.mul_val, feedback_zero_left k h, mul_zero, add_zero])

/-- The temporaries of a block of one sample whose two scalars are the latched ones. -/
def Block.held (c : Config) (k : NumVal) (s : State) : Block where
  k := k
  freq := Source.ofScalar c s.prevFreq s.prevFreq s.cpsToInc 1
  offs := Source.ofScalar c s.prevPhase s.prevPhase s.radToInc 1

theorem prologue_of_held {c : Config} {s : State} {k : NumVal} (hfin : readFin s 0 = some s.prevFreq)
    (hpin : readPin s 0 = some s.prevPhase) (hbin : readBin s 0 = some k) :
    prologue c .kk 1 s = some (Block.held c k s) :=
  prologue_eq_some.2
    ⟨hbin, sourceOf_eq_some.2 (.inr ⟨rfl, _, hfin, rfl⟩), sourceOf_eq_some.2 (.inr ⟨rfl, _, hpin, rfl⟩)⟩

/-- The first sample from PHASE 0 on held scalars after a silent output, OUT not written. -/
theorem sample_of_held {c : Config} {s : State} {y : NumVal} (i : Nat) (k : NumVal) (hphase : s.phase = 0#32)
    (hsilent : c.num.val s.prevOut = 0)
    (hlookup : lookup c s (scaledWord c s.cpsToInc s.prevFreq + scaledWord c s.radToInc s.prevPhase) = some y) :
    sample c false i (Block.held c k s) s =
      some ((Block.held c k s).stepped c, s.withSample (scaledWord c s.cpsToInc s.prevFreq) y) := by
  have hadd (w : Word) : add32 s.phase w = w := by rw [hphase, add32, BitVec.zero_add]
  have hpos : lookup c s (add32 (add32 s.phase (scaledWord c s.cpsToInc s.prevFreq))
      (phaseOffset c (c.num.mul s.radToInc s.prevPhase) s.radToInc (feedback c s.prevOut k))) = some y := by
    rw [hadd, phaseOffset_of_silent _ _ _ hsilent]
    exact hlookup
  refine sample_eq_some.2
    ⟨_, _, y, Source.select_ofScalar_held .., Source.select_ofScalar_held .., hpos, rfl, ?_⟩
  exact congrArg (fun p => some (s.withSample p y)) (hadd _)

/-- The warm-up (R71) from PHASE 0 on held scalars after a silent output writes PHASE and PREVOUT and nothing else. -/
theorem warmup_of_held {c : Config} {s : State} {k y : NumVal} (hfin : readFin s 0 = some s.prevFreq)
    (hpin : readPin s 0 = some s.prevPhase) (hbin : readBin s 0 = some k) (hphase : s.phase = 0#32)
    (hsilent : c.num.val s.prevOut = 0)
    (hlookup : lookup c s (scaledWord c s.cpsToInc s.prevFreq + scaledWord c s.radToInc s.prevPhase) = some y) :
    warmup c s = some (s.withSample (scaledWord c s.cpsToInc s.prevFreq) y) := by
  rw [warmup, routine, prologue_of_held hfin hpin hbin, Option.bind_some, samples_succ,
    sample_of_held 0 k hphase hsilent hlookup, Option.bind_some, samples_zero, Option.map_some, epilogue_eq]
  rfl

/-! ### CONSTRUCT -/

theorem Memory.supplies_one {m : Memory} {v : NumVal} (h : Memory.read m 0 = some v) : Memory.supplies m 1 = true :=
  (Memory.supplies_iff m 1).2 fun _ hk => ⟨v, Nat.lt_one_iff.1 hk ▸ h⟩

theorem constructSupplied_of_read {ls : BitVec 5} {s : State} {f0 p0 k0 : NumVal} (hfin : Memory.read s.fin 0 = some f0)
    (hpin : Memory.read s.pin 0 = some p0) (hbin : Memory.read s.bin 0 = some k0)
    (htab : Memory.supplies s.tab (tableSize ls) = true) : constructSupplied ls s = true := by
  rw [constructSupplied, Memory.supplies_one hfin, Memory.supplies_one hpin, Memory.supplies_one hbin, htab]
  rfl

/-- CONSTRUCT in closed form (R72): the registers it sets, then the one sample of the warm-up. -/
theorem construct_eq_next {c : Config} {var : Variant} {ls : BitVec 5} {s : State} {T f0 p0 k0 y : NumVal}
    (hmut : s.tabMutated = false) (hfits : ls.toNat + c.F ≤ 32) (hcfg : Memory.read s.cfg 0 = some T)
    (hT : 0 < c.num.val T) (hfin : Memory.read s.fin 0 = some f0) (hpin : Memory.read s.pin 0 = some p0)
    (hbin : Memory.read s.bin 0 = some k0) (htab : Memory.supplies s.tab (tableSize ls) = true)
    (hlookup : lookup c (s.constructed c var ls T f0 p0)
      (scaledWord c (cpsToIncOf c ls T) f0 + scaledWord c (radToIncOf c ls) p0) = some y) :
    construct c var ls s =
      .next ((s.constructed c var ls T f0 p0).withSample (scaledWord c (cpsToIncOf c ls T) f0) y) := by
  have hsilent : c.num.val (c.real 0) = 0 := by rw [Config.real_val, Nat.cast_zero]
  have hwarm : warmup c (s.constructed c var ls T f0 p0) =
      some ((s.constructed c var ls T f0 p0).withSample (scaledWord c (cpsToIncOf c ls T) f0) y) :=
    warmup_of_held (s := s.constructed c var ls T f0 p0) hfin hpin hbin rfl hsilent hlookup
  exact construct_next.2 ⟨hmut, hfits, constructSupplied_of_read hfin hpin hbin htab, T, f0, p0, hcfg,
    (c.num.pos_iff T).2 hT, hfin, hpin, hwarm⟩

end Sys2Proof.Machine

namespace Sys2Proof.Safety

open Sys2Proof.Machine

/-- Settles O24: the constants by their formulas, the whole table answers the warm-up's lookup, the next state by
`construct_eq_next`. -/
theorem constructLeavesTheClosedForm : Obligations.ConstructLeavesTheClosedForm := by
  intro var ls s T f0 p0 k0 hmut hfits hcfg hT hfin hpin hbin htab
  have hsize : (tableSize ls : ℝ) = 2 ^ ls.toNat := by rw [tableSize, Nat.cast_pow, Nat.cast_ofNat]
  obtain ⟨y, hy⟩ := lookup_total Config.hw (s := s.constructed Config.hw var ls T f0 p0)
    (scaledWord Config.hw (cpsToIncOf Config.hw ls T) f0 + scaledWord Config.hw (radToIncOf Config.hw ls) p0) rfl htab
  refine ⟨cpsToIncOf Config.hw ls T, radToIncOf Config.hw ls, _, _, y, ?_, ?_, truncatesTo_scaledWord _ _ f0,
    truncatesTo_scaledWord _ _ p0, ?_, ?_⟩
  · rw [cpsToIncOf_val, hsize]
  · rw [radToIncOf_val, hsize]
  · exact (lookup_congr _ _ rfl rfl).trans hy
  · exact construct_eq_next hmut hfits hcfg hT hfin hpin hbin htab hy

/-- Settles O25: CONSTRUCT writes every register before it reads one (`sameButRegisters.construct_eq`). -/
theorem constructIgnoresTheOldInstance : Obligations.ConstructIgnoresTheOldInstance := by
  intro var ls s t h
  rw [exec_construct, exec_construct, h.construct_eq]

/-- Settles O27: RELEASE is admitted and leaves the state without its instance, the spaces as they were. -/
theorem releaseEndsTheInstance : Obligations.ReleaseEndsTheInstance := fun s hmut hvalid =>
  ⟨s.unset, releaseInstance_next.2 ⟨hmut, hvalid, rfl⟩, s.unset_valid, s.unset_space, s.unset_host,
    s.unset_tabMutated.trans hmut⟩

end Sys2Proof.Safety
end

section
/-! ## The integer laws (R76, R77)

A word's signed value is the remainder in the range of a word: of the truncated number for `TRUNC32`, of the signed sum
for `+32`. -/

namespace Sys2Proof.Machine

/-- `z` is the real number `r` without its fraction, toward zero (R76): not farther from 0, less than 1 away, of `r`'s
sign. -/
def TowardZero (r : ℝ) (z : Int) : Prop := |(z : ℝ)| ≤ |r| ∧ |r - z| < 1 ∧ 0 ≤ z * r

theorem TowardZero.floor {r : ℝ} (h : 0 ≤ r) : TowardZero r ⌊r⌋ := by
  have hz : (0 : ℝ) ≤ ⌊r⌋ := by exact_mod_cast Int.floor_nonneg.2 h
  refine ⟨abs_le_abs_of_nonneg hz (Int.floor_le r), ?_, mul_nonneg hz h⟩
  rw [abs_of_nonneg (sub_nonneg.2 (Int.floor_le r)), sub_lt_iff_lt_add']
  exact Int.lt_floor_add_one r

/-- Dropping the fraction toward zero commutes with the change of sign. -/
theorem TowardZero.neg {r : ℝ} {z : Int} (h : TowardZero r z) : TowardZero (-r) (-z) := by
  obtain ⟨hle, hlt, hsign⟩ := h
  refine ⟨?_, ?_, ?_⟩
  · rwa [Int.cast_neg, abs_neg, abs_neg]
  · rwa [Int.cast_neg, ← neg_sub', abs_neg]
  · rwa [Int.cast_neg, neg_mul_neg]

/-- `trunc` drops the fraction toward zero (R76): the floor from 0 up, its mirror image from 0 down. -/
theorem towardZero_trunc (c : Config) (r : NumVal) : TowardZero (c.num.val r) (c.num.trunc r) := by
  rcases le_total 0 (c.num.val r) with h | h
  · rw [c.num.trunc_of_nonneg r h]
    exact .floor h
  · rw [c.num.trunc_of_nonpos r h]
    simpa only [Int.floor_neg, neg_neg] using (TowardZero.floor (neg_nonneg.2 h)).neg

/-- The truncation of a rational number is the same in every configuration. -/
theorem trunc_rat (c : Config) (q : Rat) : c.num.trunc (.rat q) = if 0 ≤ q then ⌊q⌋ else ⌈q⌉ := by
  have hval : c.num.val (.rat q) = q := c.num.val_rat q
  split_ifs with h
  · rw [c.num.trunc_of_nonneg _ (by rw [hval]; exact_mod_cast h), hval, Rat.floor_cast]
  · rw [c.num.trunc_of_nonpos _ (by rw [hval]; exact_mod_cast (not_le.1 h).le), hval, Rat.ceil_cast]

/-- The range of `i32`. -/
theorem Word.toInt_bounds (w : Word) : -2 ^ 31 ≤ w.toInt ∧ w.toInt ≤ 2 ^ 31 - 1 :=
  ⟨BitVec.le_toInt w, Int.le_sub_one_of_lt (BitVec.toInt_lt (x := w))⟩

theorem toInt_trunc32 (c : Config) (r : NumVal) : (trunc32 c r).toInt = (c.num.trunc r).bmod (2 ^ 32) :=
  BitVec.toInt_ofInt _

theorem toInt_add32 (a b : Word) : (add32 a b).toInt = (a.toInt + b.toInt).bmod (2 ^ 32) :=
  BitVec.toInt_add a b

/-- The truncated value of a rational number, as a computation on rational numbers. -/
theorem toInt_trunc32_rat (c : Config) (q : Rat) :
    (trunc32 c (.rat q)).toInt = (if 0 ≤ q then ⌊q⌋ else ⌈q⌉ : Int).bmod (2 ^ 32) := by
  rw [toInt_trunc32, trunc_rat]

end Sys2Proof.Machine

namespace Sys2Proof.Safety

open Sys2Proof.Machine

/-- Settles O16: the integer toward zero is `trunc r`; the examples are rational numbers. -/
theorem truncationIsTowardZeroThenWraps : Obligations.TruncationIsTowardZeroThenWraps := by
  intro c
  constructor
  · intro r
    obtain ⟨hle, hlt, hsign⟩ := towardZero_trunc c r
    refine ⟨c.num.trunc r, hle, hlt, hsign, ?_, Word.toInt_bounds _⟩
    rw [toInt_trunc32]
    exact Int.dvd_bmod_sub_self
  · simp only [toInt_trunc32_rat]
    norm_num [Int.bmod]

/-- Settles O17: the remainder of the signed sum, in range as every word is. -/
theorem adderWrapsModulo : Obligations.AdderWrapsModulo := by
  refine ⟨fun a b => ⟨?_, Word.toInt_bounds _⟩, by decide, by decide⟩
  rw [toInt_add32]
  exact Int.dvd_bmod_sub_self

end Sys2Proof.Safety
end

section
/-! ## The feedback term (R78, R79)

The three cases of `feedback_val` exclude each other, so the sign of the coefficient picks the formula. -/

namespace Sys2Proof.Machine

section

variable {c : Config} {k : NumVal} (prev : NumVal)

theorem feedback_val_of_pos (h : 0 < c.num.val k) :
    c.num.val (feedback c prev k) = c.num.val prev * c.num.val k := by
  rcases feedback_val c prev k with ⟨-, e⟩ | ⟨hneg, -⟩ | ⟨hzero, -⟩
  · exact e
  · exact absurd hneg h.not_gt
  · exact absurd hzero h.ne'

theorem feedback_val_of_neg (h : c.num.val k < 0) :
    c.num.val (feedback c prev k) = c.num.val prev ^ 2 * c.num.val k := by
  rcases feedback_val c prev k with ⟨hpos, -⟩ | ⟨-, e⟩ | ⟨hzero, -⟩
  · exact absurd hpos h.not_gt
  · exact e
  · exact absurd hzero h.ne

theorem feedback_val_of_zero (h : c.num.val k = 0) : c.num.val (feedback c prev k) = 0 := by
  rw [feedback_zero_right prev h, Config.real_val, Nat.cast_zero]

end

end Sys2Proof.Machine

namespace Sys2Proof.Safety

open Sys2Proof.Machine

/-- Settles O18: one formula per sign of the coefficient. -/
theorem feedbackHasThreeCases : Obligations.FeedbackHasThreeCases := fun _ prev _ =>
  ⟨feedback_val_of_pos prev, feedback_val_of_neg prev, feedback_val_of_zero prev⟩

/-- Settles O19: a square is not negative, and a product with a positive coefficient has the sign of the other factor. -/
theorem feedbackSignIsFixed : Obligations.FeedbackSignIsFixed := by
  refine fun c prev k => ⟨fun hk => ?_, fun hk => ?_, feedback_val_of_zero prev⟩
  · rw [feedback_val_of_neg prev hk]
    exact mul_nonpos_of_nonneg_of_nonpos (sq_nonneg _) hk.le
  · rw [feedback_val_of_pos prev hk]
    exact ⟨fun h => mul_pos h hk, fun h => mul_neg_of_neg_of_pos h hk, fun h => by rw [h, zero_mul]⟩

end Sys2Proof.Safety
end

section
/-! ## The lookup (R84 to R86)

With the table's own mask both indices are in the table, and the index and the fraction are quotient and remainder of
the position's low `F + LS` bits. -/

namespace Sys2Proof.Machine

open Sys2Proof.Safety

theorem tableFits_iff (s : State) :
    tableFits s = true ↔ s.loMask = loMaskOf s.ls ∧ Memory.supplies s.tab (tableSize s.ls) = true := by
  rw [tableFits, Bool.and_eq_true, beq_iff_eq]

/-- With the table's own mask and a whole table, both entries are there and LOOKUP is the interpolation between them
(R85). -/
theorem lookup_of_tableFits (c : Config) {s : State} (pos : Word) (h : tableFits s = true) :
    ∃ t0 t1, Memory.read s.tab (lookupIndex c s.loMask pos).toNat = some t0 ∧
      Memory.read s.tab (lookupNext c s.loMask pos).toNat = some t1 ∧
      lookup c s pos = some (interpolate c t0 t1 (lookupFrac c pos)) := by
  obtain ⟨hmask, htab⟩ := (tableFits_iff s).1 h
  obtain ⟨y, hy⟩ := lookup_total c pos hmask htab
  obtain ⟨t0, t1, h0, h1, rfl⟩ := lookup_eq_some.1 hy
  exact ⟨t0, t1, h0, h1, hy⟩

/-- The fraction is built from the position's low `F` bits (R84). -/
theorem lookupFrac_eq (c : Config) (pos : Word) :
    lookupFrac c pos = c.num.div (c.real (pos.toNat % 2 ^ c.F)) (c.real (2 ^ c.F)) := by
  have hle : 2 ^ c.F ≤ 2 ^ 32 := Nat.pow_le_pow_right (by decide) (Nat.lt_succ_iff.1 c.fracBits.isLt)
  have hlt : 2 ^ c.F - 1 < 2 ^ 32 := Nat.sub_one_lt_of_le (Nat.two_pow_pos _) hle
  rw [lookupFrac, BitVec.toNat_and, BitVec.toNat_ofNat, Nat.mod_eq_of_lt hlt, Nat.and_two_pow_sub_one_eq_mod]

/-- LOOKUP sees the low `F + LS` bits of the position only (R84). -/
theorem lookup_eq_of_mod_eq (c : Config) {s : State} {pos pos' : Word} (hmask : s.loMask = loMaskOf s.ls)
    (h : pos'.toNat % (2 ^ c.F * 2 ^ s.ls.toNat) = pos.toNat % (2 ^ c.F * 2 ^ s.ls.toNat)) :
    lookup c s pos' = lookup c s pos := by
  have hindex : lookupIndex c s.loMask pos' = lookupIndex c s.loMask pos := by
    apply BitVec.eq_of_toNat_eq
    rw [hmask, lookupIndex_toNat, lookupIndex_toNat, ← Nat.mod_mul_right_div_self, h, Nat.mod_mul_right_div_self]
  have hnext : lookupNext c s.loMask pos' = lookupNext c s.loMask pos := by
    rw [lookupNext, hindex, lookupNext]
  have hfrac : lookupFrac c pos' = lookupFrac c pos := by
    rw [lookupFrac_eq, lookupFrac_eq, ← Nat.mod_mul_right_mod pos'.toNat, h, Nat.mod_mul_right_mod]
  rw [lookup, lookup, hindex, hnext, hfrac]

/-- A period that is a power of two not above 2^32 survives the wrap of the position (R86). -/
theorem toNat_add_wrap32_mod (pos : Word) {m : Nat} (hm : m ∣ 2 ^ 32) :
    (pos + wrap32 (m : Int)).toNat % m = pos.toNat % m := by
  rw [wrap32, BitVec.ofInt_natCast, BitVec.toNat_add, BitVec.toNat_ofNat, Nat.add_mod_mod, Nat.mod_mod_of_dvd _ hm,
    Nat.add_mod_right]

end Sys2Proof.Machine

namespace Sys2Proof.Safety

open Sys2Proof.Machine

/-- Settles O20: the two entries by their indices' arithmetic. -/
theorem lookupInterpolatesAdjacentEntries : Obligations.LookupInterpolatesAdjacentEntries := by
  intro c s pos h
  obtain ⟨hmask, -⟩ := (tableFits_iff s).1 h
  obtain ⟨t0, t1, h0, h1, hy⟩ := lookup_of_tableFits c pos h
  rw [hmask, lookupIndex_toNat] at h0
  rw [hmask, lookupNext_toNat] at h1
  exact ⟨t0, t1, _, h0, h1, hy, by rw [interpolate_val, lookupFrac_val]⟩

/-- Settles O21: the mask bounds both indices, `SIZE × 2^F` divides 2^32, and an interpolated value lies between its
ends. -/
theorem lookupStaysInTheTable : Obligations.LookupStaysInTheTable := by
  intro c s pos h hfits
  obtain ⟨hmask, -⟩ := (tableFits_iff s).1 h
  obtain ⟨t0, t1, h0, h1, hy⟩ := lookup_of_tableFits c pos h
  obtain ⟨hmin, hmax⟩ := interpolate_mem_Icc (c := c) (t0 := t0) (t1 := t1) pos
    (Set.mem_Icc.2 ⟨min_le_left _ _, le_max_left _ _⟩) (Set.mem_Icc.2 ⟨min_le_right _ _, le_max_right _ _⟩)
  have hindex (w : Word) : (w &&& s.loMask).toNat < 2 ^ s.ls.toNat := by
    rw [hmask]
    exact and_loMaskOf_lt w s.ls
  have hperiod : 2 ^ c.F * 2 ^ s.ls.toNat ∣ 2 ^ 32 := by
    rw [← Nat.pow_add]
    exact Nat.pow_dvd_pow 2 (by omega)
  refine ⟨hindex _, hindex _, ?_, t0, t1, _, h0, h1, hy, hmin, hmax⟩
  rw [Nat.mul_comm]
  exact lookup_eq_of_mod_eq c hmask (toNat_add_wrap32_mod pos hperiod)

end Sys2Proof.Safety
end

section
/-! ## What a GEN command latches (R90, R99) -/

namespace Sys2Proof.Machine

/-- The latch of an input takes the scalar read if the input is per-block and stands still if it is per-sample (R90). -/
theorem latched_of_sourceOf {c : Config} {perBlock : Bool} {x : Option NumVal} {prev K : NumVal} {n : Nat} {src : Source}
    (h : sourceOf c perBlock x prev K n = some src) (old : NumVal) :
    (perBlock = true → x = some (src.latched old)) ∧ (perBlock = false → src.latched old = old) := by
  rcases sourceOf_eq_some.1 h with ⟨rfl, rfl⟩ | ⟨rfl, new, rfl, rfl⟩
  · exact ⟨nofun, fun _ => rfl⟩
  · exact ⟨fun _ => rfl, nofun⟩

end Sys2Proof.Machine

namespace Sys2Proof.Safety

open Sys2Proof.Machine

/-- Settles O36: the registers and OUT after the routine, the last sample being `n - 1`. -/
theorem genLatchesTheScalarsAndTheLastOutput : Obligations.GenLatchesTheScalarsAndTheLastOutput := by
  intro v n s t h
  rw [exec_gen] at h
  obtain ⟨hn, -, -, -, -, hr⟩ := generate_next.1 h
  obtain ⟨b, P, Y, hb, -, ht, -, hemit, -⟩ := routine_next hr
  obtain ⟨-, hfreq, hoffs⟩ := prologue_eq_some.1 hb
  obtain ⟨hwritten, -⟩ := hemit rfl
  have hprevOut : t.prevOut = Y n.toNat := congrArg State.prevOut ht
  have hprevFreq : t.prevFreq = b.freq.latched s.prevFreq := congrArg State.prevFreq ht
  have hprevPhase : t.prevPhase = b.offs.latched s.prevPhase := congrArg State.prevPhase ht
  have hpos : 1 ≤ n.toNat := Nat.one_le_iff_ne_zero.2 fun e => hn (BitVec.eq_of_toNat_eq e)
  have hlast : Memory.read t.out (n.toNat - 1) = some (Y n.toNat) := by
    simpa only [Nat.sub_add_cancel hpos] using hwritten (n.toNat - 1) (by omega)
  obtain ⟨hfread, hfheld⟩ := latched_of_sourceOf hfreq s.prevFreq
  obtain ⟨hpread, hpheld⟩ := latched_of_sourceOf hoffs s.prevPhase
  rw [hprevOut, hprevFreq, hprevPhase]
  exact ⟨hlast, hfread, hfheld, hpread, hpheld⟩

end Sys2Proof.Safety
end

section
/-! ## The sample loop in parts (R94, R131) -/

namespace Sys2Proof.Machine

theorem samples_one (c : Config) (emit : Bool) (i : Nat) (b : Block) (s : State) :
    samples c emit 1 i b s = sample c emit i b s :=
  Option.bind_fun_some _

/-- The loop over `m + n` samples, refusals included. -/
theorem samples_add (c : Config) (emit : Bool) (m n i : Nat) (b : Block) (s : State) :
    samples c emit (m + n) i b s = (samples c emit m i b s).bind fun p => samples c emit n (i + m) p.1 p.2 := by
  induction m generalizing i b s with
  | zero => rw [Nat.zero_add, samples_zero, Option.bind_some, Nat.add_zero]
  | succ m ih =>
    rw [Nat.add_right_comm m 1 n, samples_succ, samples_succ, Option.bind_assoc]
    simp only [ih, Nat.add_assoc, Nat.add_comm 1 m]

/-- The last sample of the loop by itself. -/
theorem samples_succ_last (c : Config) (emit : Bool) (m i : Nat) (b : Block) (s : State) :
    samples c emit (m + 1) i b s = (samples c emit m i b s).bind fun p => sample c emit (i + m) p.1 p.2 := by
  rw [samples_add]
  simp only [samples_one]

end Sys2Proof.Machine

namespace Sys2Proof.Safety

open Sys2Proof.Machine

/-- Settles O23: by induction on the first part. -/
theorem samplesCompose : Obligations.SamplesCompose :=
  samples_add

end Sys2Proof.Safety
end

section
/-! ## The ramp of a per-block input (R81, R82, R103) -/

namespace Sys2Proof.Machine

/-- The straight line from `A` to `B`, which ends in `B` after the block's `N` samples (R103). -/
theorem ramp_sample (c : Config) (A B K : NumVal) {N : Nat} (hN : 1 ≤ N) (x : Option NumVal) (i : Nat) :
    ∃ y, (i < N → ((Source.stepped c)^[i] (Source.ofScalar c B A K N)).select c K x = some y) ∧
      (N ≤ i → y = c.num.mul K B) ∧
      (i ≤ N → c.num.val y = c.num.val K * (c.num.val A + i * (c.num.val B - c.num.val A) / N)) := by
  have hN0 : (N : ℝ) ≠ 0 := by exact_mod_cast Nat.one_le_iff_ne_zero.1 hN
  rcases Nat.lt_or_ge i N with hi | hi
  · obtain ⟨y, hy, hval⟩ := Source.select_ramp c B A K i x hN
    exact ⟨y, fun _ => hy, fun h => absurd hi h.not_gt, fun _ => by rw [hval]; ring⟩
  · refine ⟨c.num.mul K B, fun h => absurd h hi.not_gt, fun _ => rfl, fun h => ?_⟩
    obtain rfl : i = N := le_antisymm h hi
    rw [NumSystem.mul_val]
    field_simp
    ring

end Sys2Proof.Machine

namespace Sys2Proof.Safety

open Sys2Proof.Machine

/-- Settles O22: the samples of the block and the first of the next lie on one straight line. -/
theorem rampIsExactlyLinear : Obligations.RampIsExactlyLinear := by
  intro c A B K N M x hN _
  choose run hrun hnext hval using ramp_sample c A B K hN x
  have hlast : run N = c.num.mul K B := hnext N le_rfl
  refine ⟨run, fun i hi => ⟨hrun i hi, hval i hi.le⟩, ?_, ?_, fun i hi => ?_⟩
  · rw [hlast]
    exact Source.select_ofScalar_held c B K M x
  · rw [hlast, NumSystem.mul_val]
  · rw [hval (i + 1) hi, hval i hi.le]
    push_cast
    ring

end Sys2Proof.Safety
end

section
/-! ## A GEN word of another shape -/

namespace Sys2Proof.Machine

/-- While VALID is 1 a GEN command comes to the test of the shape (R94). -/
theorem generate_of_shapeMismatch {c : Config} {v : Variant} {n : BitVec 26} {s : State} (hn : n ≠ 0#26)
    (hu : s.tabMutated = false) (hv : s.valid = true) (hvar : s.variant ≠ v) :
    generate c v n s = .refused .shapeMismatch := by
  simp only [generate, hn, hu, hv, hvar.symm, Bool.false_eq_true, if_false, if_true]

end Sys2Proof.Machine

namespace Sys2Proof.Safety

open Sys2Proof.Machine

/-- Settles O34: the four GEN commands are one command with the variant as a field. -/
theorem wrongShapeIsRefused : Obligations.WrongShapeIsRefused := by
  intro v n s hn hu hv hvar
  rw [exec_gen]
  exact generate_of_shapeMismatch hn hu hv hvar

end Sys2Proof.Safety
end

section
/-! ## A block without feedback does not see the previous output (R101)

The feedback term is 0 whatever PREVOUT holds (R78), and the first sample overwrites PREVOUT. -/

namespace Sys2Proof.Machine

theorem sample_withPrevOut {c : Config} {b : Block} (emit : Bool) (i : Nat) (s : State) (y : NumVal)
    (hk : c.num.val b.k = 0) : sample c emit i b { s with prevOut := y } = sample c emit i b s := by
  simp only [sample, feedback_zero_right _ hk]
  rfl

theorem samples_withPrevOut {c : Config} {b : Block} (emit : Bool) {m : Nat} (i : Nat) (s : State) (y : NumVal)
    (hm : 1 ≤ m) (hk : c.num.val b.k = 0) :
    samples c emit m i b { s with prevOut := y } = samples c emit m i b s := by
  obtain ⟨m, rfl⟩ := Nat.exists_eq_add_of_le' hm
  rw [samples_succ, samples_succ, sample_withPrevOut emit i s y hk]

theorem routine_withPrevOut {c : Config} {v : Variant} {emit : Bool} {n : Nat} {s : State} {k : NumVal} (y : NumVal)
    (hn : 1 ≤ n) (hbin : readBin s 0 = some k) (hk : c.num.val k = 0) :
    routine c v emit n { s with prevOut := y } = routine c v emit n s := by
  have hpro : prologue c v n { s with prevOut := y } = prologue c v n s := rfl
  rw [routine, routine, hpro]
  cases hb : prologue c v n s with
  | none => rfl
  | some b =>
    obtain ⟨hbk, -, -⟩ := prologue_eq_some.1 hb
    obtain rfl : k = b.k := Option.some.inj (hbin.symm.trans hbk)
    rw [Option.bind_some, Option.bind_some, samples_withPrevOut emit 0 s y hn hk]

/-- A block that is not empty has a first sample. -/
theorem one_le_toNat {n : BitVec 26} (hn : n ≠ 0#26) : 1 ≤ n.toNat :=
  Nat.one_le_iff_ne_zero.2 fun e => hn (BitVec.eq_of_toNat_eq e)

theorem generate_withPrevOut {c : Config} {v : Variant} {n : BitVec 26} {s : State} {k : NumVal} (y : NumVal)
    (hbin : readBin s 0 = some k) (hk : c.num.val k = 0) :
    generate c v n { s with prevOut := y } = generate c v n s := by
  by_cases hn : n = 0#26
  · rw [generate, generate, if_pos hn, if_pos hn]
  · simp only [generate, routine_withPrevOut y (one_le_toNat hn) hbin hk]
    rfl

end Sys2Proof.Machine

namespace Sys2Proof.Safety

open Sys2Proof.Machine

/-- Settles O38: the admission checks do not read PREVOUT, and the routine does not see it. -/
theorem zeroFeedbackIgnoresThePreviousOutput : Obligations.ZeroFeedbackIgnoresThePreviousOutput := by
  intro v n s k y hbin hk
  rw [exec_gen, exec_gen]
  exact generate_withPrevOut y hbin hk

end Sys2Proof.Safety
end

section
/-! ## A GEN block follows the recurrences (R92, R94 to R98)

The four GEN commands at once: an input of either rate class has in sample `i` the real number `inputValue`, so the
machine's loop is a `BlockTrace` on these numbers, and a trace fixes the state the block leaves, OUT included. -/

namespace Sys2Proof.Machine

open Sys2Proof.Safety

/-! ### An input of either rate class -/

section

variable (c : Config) (perBlock : Bool) (x : Nat → NumVal) (prev K : NumVal) (n : Nat)

/-- An input with the elements `x` at the start of a block: `x 0` is the scalar if it is per-block (R94). -/
def inputSource : Source :=
  if perBlock then Source.ofScalar c (x 0) prev K n else .perSample

/-- The number the multiplexer gives for that input in sample `i`: an element scaled (R80), or the straight line from the
latched to the new scalar (R81, R82). -/
noncomputable def inputValue (i : Nat) : ℝ :=
  if perBlock then c.num.val K * c.num.val prev + i * (c.num.val K * (c.num.val (x 0) - c.num.val prev) / n)
  else c.num.val K * c.num.val (x i)

theorem inputSource_latched (old : NumVal) :
    (inputSource c perBlock x prev K n).latched old = if perBlock then x 0 else old := by
  cases perBlock <;> rfl

variable {c perBlock x prev K n}

theorem scaledValues_inputValue : ScaledValues c K x n (inputValue c false x prev K n) :=
  fun _ _ => rfl

theorem rampValues_inputValue : RampValues c K prev (x 0) n (inputValue c true x prev K n) :=
  fun _ _ => rfl

variable (c prev K) {m : Memory} (hx : ∀ i, i < elementsOf perBlock n → Memory.read m i = some (x i))

include hx

theorem sourceOf_eq_inputSource :
    sourceOf c perBlock (Memory.read m 0) prev K n = some (inputSource c perBlock x prev K n) := by
  cases perBlock with
  | false => rfl
  | true => rw [hx 0 Nat.one_pos]; rfl

theorem inputSource_select {i : Nat} (hi : i < n) :
    ∃ y, ((Source.stepped c)^[i] (inputSource c perBlock x prev K n)).select c K (Memory.read m i) = some y ∧
      c.num.val y = inputValue c perBlock x prev K n i := by
  cases perBlock with
  | false =>
    have hread : Memory.read m i = some (x i) := hx i hi
    exact ⟨c.num.mul K (x i), by simp [inputSource, hread], c.num.val_mul K (x i)⟩
  | true => exact Source.select_ramp c (x 0) prev K i _ (Nat.one_le_of_lt hi)

end

/-! ### The elements a block writes -/

/-- OUT after the block's writes: `Y (i + 1)` written to element `i`, for `i` from 0 to `n - 1` (R92, R94). -/
def outAfter (Y : Nat → NumVal) (out : Memory) : Nat → Memory
  | 0 => out
  | n + 1 => Memory.write (outAfter Y out n) n (Y (n + 1))

theorem read_outAfter (Y : Nat → NumVal) (out : Memory) (n i : Nat) :
    Memory.read (outAfter Y out n) i = if i < n then some (Y (i + 1)) else Memory.read out i := by
  induction n with
  | zero => rfl
  | succ n ih =>
    rw [outAfter, Memory.read_write, ih]
    rcases Nat.lt_trichotomy i n with h | rfl | h
    · rw [if_neg h.ne, if_pos h, if_pos (Nat.lt_succ_of_lt h)]
    · rw [if_pos rfl, if_pos (Nat.lt_succ_self i)]
    · rw [if_neg h.ne', if_neg h.not_gt, if_neg (by omega)]

theorem outAfter_congr {Y Y' : Nat → NumVal} (out : Memory) {n : Nat} (h : ∀ i, i ≤ n → Y' i = Y i) :
    outAfter Y' out n = outAfter Y out n := by
  induction n with
  | zero => rfl
  | succ n ih => rw [outAfter, outAfter, ih fun i hi => h i (Nat.le_succ_of_le hi), h (n + 1) le_rfl]

theorem outWritten_outAfter {s t : State} {n : Nat} {Y : Nat → NumVal} (h : t.out = outAfter Y s.out n) :
    OutWritten s t n Y := by
  refine ⟨fun i hi => ?_, fun i hi => ?_⟩
  · rw [h, read_outAfter, if_pos hi]
  · rw [h, read_outAfter, if_neg hi.not_gt]

/-! ### A trace fixes the loop -/

theorem LoopTrace.of_succ {c : Config} {s : State} {b : Block} {i m : Nat} {P : Nat → Word} {Y : Nat → NumVal}
    (h : LoopTrace c s b i (m + 1) P Y) : LoopTrace c s b i m P Y := by
  obtain ⟨hP, hY, hstep⟩ := h
  exact ⟨hP, hY, fun j hj => hstep j (Nat.lt_succ_of_lt hj)⟩

/-- The state the loop leaves is the trace's last PHASE and PREVOUT and all its outputs. -/
theorem samples_of_loopTrace {c : Config} {s : State} {b : Block} {m : Nat} {P : Nat → Word} {Y : Nat → NumVal}
    (h : LoopTrace c s b 0 m P Y) (hout : Memory.supplies s.out m = true) :
    samples c true m 0 b s =
      some ((Block.stepped c)^[m] b, (s.withSample (P m) (Y m)).withOut (outAfter Y s.out m)) := by
  induction m with
  | zero =>
    obtain ⟨hP, hY, -⟩ := h
    rw [samples_zero, hP, hY]
    rfl
  | succ m ih =>
    rw [Memory.supplies, Bool.and_eq_true, Option.isSome_iff_exists] at hout
    obtain ⟨⟨w, hw⟩, hout⟩ := hout
    obtain ⟨-, -, hstep⟩ := id h
    obtain ⟨finc, pinc, hf, hp, hP, hl⟩ := hstep m (Nat.lt_succ_self m)
    have hk : ((Block.stepped c)^[m] b).k = b.k := by rw [Block.iterate]
    have hroom : Memory.read (outAfter Y s.out m) m = some w := by
      rw [read_outAfter, if_neg (Nat.lt_irrefl m), hw]
    rw [Nat.zero_add] at hf hp
    rw [samples_succ_last, ih h.of_succ hout, Option.bind_some, Nat.zero_add, Function.iterate_succ_apply']
    refine sample_eq_some.2 ⟨finc, pinc, Y (m + 1), hf, hp, ?_, rfl, ?_⟩
    · rw [hk, State.withOut_phase, State.withSample_phase, ← hP]
      exact hl
    · rw [State.withOut_phase, State.withSample_phase, ← hP]
      exact writeOut_eq_some.2 ⟨⟨w, hroom⟩, rfl⟩

/-! ### The block -/

/-- The temporaries of a block with the elements `f` of FIN, `p` of PIN and the feedback coefficient `k` (R94). -/
def genBlock (c : Config) (v : Variant) (n : Nat) (s : State) (f p : Nat → NumVal) (k : NumVal) : Block where
  k := k
  freq := inputSource c v.fk f s.prevFreq s.cpsToInc n
  offs := inputSource c v.pk p s.prevPhase s.radToInc n

/-- The frequency increments of the block. -/
noncomputable def freqValue (c : Config) (v : Variant) (n : Nat) (s : State) (f : Nat → NumVal) : Nat → ℝ :=
  inputValue c v.fk f s.prevFreq s.cpsToInc n

/-- The phase-offset parameters of the block. -/
noncomputable def offsValue (c : Config) (v : Variant) (n : Nat) (s : State) (p : Nat → NumVal) : Nat → ℝ :=
  inputValue c v.pk p s.prevPhase s.radToInc n

/-- The state after the block: the last PHASE and PREVOUT of the trace, its outputs, the latches (R90, R92). -/
def genResult (v : Variant) (n : Nat) (s : State) (f p : Nat → NumVal) (P : Nat → Word) (Y : Nat → NumVal) : State :=
  { s with
    phase := P n, prevOut := Y n
    prevFreq := if v.fk then f 0 else s.prevFreq
    prevPhase := if v.pk then p 0 else s.prevPhase
    out := outAfter Y s.out n }

/-- A block that meets the conditions of R107, with the elements of FIN, PIN and BIN it reads. -/
structure AdmittedBlock (v : Variant) (n : BitVec 26) (s : State) (f p : Nat → NumVal) (k : NumVal) : Prop where
  nonempty : n ≠ 0#26
  unbroken : s.tabMutated = false
  valid : s.valid = true
  bound : s.variant = v
  table : tableFits s = true
  fin : ∀ i, i < elementsOf v.fk n.toNat → Memory.read s.fin i = some (f i)
  pin : ∀ i, i < elementsOf v.pk n.toNat → Memory.read s.pin i = some (p i)
  bin : Memory.read s.bin 0 = some k
  out : Memory.supplies s.out n.toNat = true

section

variable {c : Config} {v : Variant} {n : BitVec 26} {s : State} {f p : Nat → NumVal} {k : NumVal}

theorem AdmittedBlock.genSupplied (h : AdmittedBlock v n s f p k) : genSupplied v n.toNat s = true := by
  have hfin : Memory.supplies s.fin (elementsOf v.fk n.toNat) = true :=
    (Memory.supplies_iff _ _).2 fun i hi => ⟨f i, h.fin i hi⟩
  have hpin : Memory.supplies s.pin (elementsOf v.pk n.toNat) = true :=
    (Memory.supplies_iff _ _).2 fun i hi => ⟨p i, h.pin i hi⟩
  rw [Machine.genSupplied, Memory.supplies_one h.bin, hfin, hpin, h.out]
  rfl

theorem AdmittedBlock.prologue_eq (h : AdmittedBlock v n s f p k) (c : Config) :
    prologue c v n.toNat s = some (genBlock c v n.toNat s f p k) :=
  prologue_eq_some.2
    ⟨h.bin, sourceOf_eq_inputSource c s.prevFreq s.cpsToInc h.fin, sourceOf_eq_inputSource c s.prevPhase s.radToInc h.pin⟩

theorem AdmittedBlock.fmux_eq (h : AdmittedBlock v n s f p k) (c : Config) {i : Nat} (hi : i < n.toNat) :
    ∃ y, fmux c ((Block.stepped c)^[i] (genBlock c v n.toNat s f p k)) s i = some y ∧
      c.num.val y = freqValue c v n.toNat s f i := by
  rw [Block.iterate]
  exact inputSource_select c s.prevFreq s.cpsToInc h.fin hi

theorem AdmittedBlock.pmux_eq (h : AdmittedBlock v n s f p k) (c : Config) {i : Nat} (hi : i < n.toNat) :
    ∃ y, pmux c ((Block.stepped c)^[i] (genBlock c v n.toNat s f p k)) s i = some y ∧
      c.num.val y = offsValue c v n.toNat s p i := by
  rw [Block.iterate]
  exact inputSource_select c s.prevPhase s.radToInc h.pin hi

/-- The loop of an admitted block answers, so it has a trace. -/
theorem AdmittedBlock.exists_loopTrace (h : AdmittedBlock v n s f p k) (c : Config) :
    ∃ P Y, LoopTrace c s (genBlock c v n.toNat s f p k) 0 n.toNat P Y := by
  obtain ⟨hmask, htab⟩ := (tableFits_iff s).1 h.table
  obtain ⟨⟨b, t⟩, ht⟩ := samples_total (c := c) (emit := true) (i := 0)
    (fun j hj => by
      obtain ⟨y, hy, -⟩ := h.fmux_eq c hj
      exact ⟨y, by rwa [Nat.zero_add]⟩)
    (fun j hj => by
      obtain ⟨y, hy, -⟩ := h.pmux_eq c hj
      exact ⟨y, by rwa [Nat.zero_add]⟩)
    (fun pos => lookup_total c pos hmask htab)
    (fun _ j hj => by
      rw [Nat.zero_add]
      exact (Memory.supplies_iff _ _).1 h.out j hj)
  obtain ⟨-, P, Y, hT, -⟩ := samples_next ht
  exact ⟨P, Y, hT⟩

/-- The offset combiner truncates once, the sum (R83). -/
theorem truncatesTo_phaseOffset (c : Config) (pinc radToInc fb : NumVal) :
    TruncatesTo (c.num.val pinc + c.num.val radToInc * c.num.val fb) (phaseOffset c pinc radToInc fb) := by
  rw [← NumSystem.mul_val, ← NumSystem.add_val]
  exact truncatesTo_trunc32 c _

/-- The loop's trace is the recurrences of R92 on the inputs' numbers. -/
theorem AdmittedBlock.blockTrace (h : AdmittedBlock v n s f p k) {P : Nat → Word} {Y : Nat → NumVal}
    (hT : LoopTrace c s (genBlock c v n.toNat s f p k) 0 n.toNat P Y) :
    BlockTrace c s k (freqValue c v n.toNat s f) (offsValue c v n.toNat s p) n.toNat P Y := by
  obtain ⟨hP, hY, hstep⟩ := hT
  refine ⟨hP, hY, fun i hi => ?_⟩
  obtain ⟨finc, pinc, hf, hp, hphase, hlookup⟩ := hstep i hi
  obtain ⟨finc', hf', hfval⟩ := h.fmux_eq c hi
  obtain ⟨pinc', hp', hpval⟩ := h.pmux_eq c hi
  rw [Nat.zero_add] at hf hp
  obtain rfl : finc = finc' := Option.some.inj (hf.symm.trans hf')
  obtain rfl : pinc = pinc' := Option.some.inj (hp.symm.trans hp')
  rw [← hfval, ← hpval]
  exact ⟨_, _, truncatesTo_trunc32 c finc, hphase, truncatesTo_phaseOffset c pinc _ _, hlookup⟩

theorem AdmittedBlock.routine_eq (h : AdmittedBlock v n s f p k) {P : Nat → Word} {Y : Nat → NumVal}
    (hT : LoopTrace c s (genBlock c v n.toNat s f p k) 0 n.toNat P Y) :
    routine c v true n.toNat s = some (genResult v n.toNat s f p P Y) := by
  rw [routine, h.prologue_eq, Option.bind_some, samples_of_loopTrace hT h.out, Option.map_some, epilogue_eq,
    Block.iterate]
  simp only [Source.latched_iterate, genBlock, inputSource_latched]
  rfl

/-- An admitted GEN command completes, by the recurrences. -/
theorem AdmittedBlock.generate_eq (h : AdmittedBlock v n s f p k) (c : Config) :
    ∃ P Y, BlockTrace c s k (freqValue c v n.toNat s f) (offsValue c v n.toNat s p) n.toNat P Y ∧
      generate c v n s = .next (genResult v n.toNat s f p P Y) := by
  obtain ⟨P, Y, hT⟩ := h.exists_loopTrace c
  exact ⟨P, Y, h.blockTrace hT,
    generate_next.2 ⟨h.nonempty, h.unbroken, h.valid, h.bound, h.genSupplied, h.routine_eq hT⟩⟩

/-- A per-block input needs its scalar only (R42). -/
theorem read_scalar {m : Memory} {x : NumVal} {n : Nat} (h : Memory.read m 0 = some x) :
    ∀ i, i < elementsOf true n → Memory.read m i = some x :=
  fun i hi => by rwa [Nat.lt_one_iff.1 hi]

end

end Sys2Proof.Machine

namespace Sys2Proof.Safety

open Sys2Proof.Machine

/-- Settles O30: both inputs scaled element by element. -/
theorem genAAFollowsTheRecurrences : Obligations.GenAAFollowsTheRecurrences := by
  intro n s f p k hn hu hv hvar htab hfin hpin hbin hout
  have h : AdmittedBlock .aa n s f p k := ⟨hn, hu, hv, hvar, htab, hfin, hpin, hbin, hout⟩
  obtain ⟨P, Y, hT, hg⟩ := h.generate_eq Config.hw
  exact ⟨_, _, P, Y, _, scaledValues_inputValue, scaledValues_inputValue, hT, hg, outWritten_outAfter rfl, rfl⟩

/-- Settles O31: the phase offset on its ramp. -/
theorem genAKFollowsTheRecurrences : Obligations.GenAKFollowsTheRecurrences := by
  intro n s f pnew k hn hu hv hvar htab hfin hpin hbin hout
  have h : AdmittedBlock .ak n s f (fun _ => pnew) k :=
    ⟨hn, hu, hv, hvar, htab, hfin, read_scalar hpin, hbin, hout⟩
  obtain ⟨P, Y, hT, hg⟩ := h.generate_eq Config.hw
  exact ⟨_, _, P, Y, _, scaledValues_inputValue, rampValues_inputValue, hT, hg, outWritten_outAfter rfl, rfl⟩

/-- Settles O32: the frequency on its ramp. -/
theorem genKAFollowsTheRecurrences : Obligations.GenKAFollowsTheRecurrences := by
  intro n s fnew p k hn hu hv hvar htab hfin hpin hbin hout
  have h : AdmittedBlock .ka n s (fun _ => fnew) p k :=
    ⟨hn, hu, hv, hvar, htab, read_scalar hfin, hpin, hbin, hout⟩
  obtain ⟨P, Y, hT, hg⟩ := h.generate_eq Config.hw
  exact ⟨_, _, P, Y, _, rampValues_inputValue, scaledValues_inputValue, hT, hg, outWritten_outAfter rfl, rfl⟩

/-- Settles O33: both inputs on their ramps. -/
theorem genKKFollowsTheRecurrences : Obligations.GenKKFollowsTheRecurrences := by
  intro n s fnew pnew k hn hu hv hvar htab hfin hpin hbin hout
  have h : AdmittedBlock .kk n s (fun _ => fnew) (fun _ => pnew) k :=
    ⟨hn, hu, hv, hvar, htab, read_scalar hfin, read_scalar hpin, hbin, hout⟩
  obtain ⟨P, Y, hT, hg⟩ := h.generate_eq Config.hw
  exact ⟨_, _, P, Y, _, rampValues_inputValue, rampValues_inputValue, hT, hg, outWritten_outAfter rfl, rfl⟩

end Sys2Proof.Safety
end

section
/-! ## Held scalars and constant arrays (R100)

A held scalar gives the number the constant array gives in every sample, and the recurrences determine the block. -/

namespace Sys2Proof.Machine

open Sys2Proof.Safety

/-- The recurrences have one solution: the same numbers at the inputs give the same accumulator values and outputs. -/
theorem blockTrace_unique {c : Config} {s : State} {k : NumVal} {finc pinc finc' pinc' : Nat → ℝ} {n : Nat}
    {P P' : Nat → Word} {Y Y' : Nat → NumVal} (h : BlockTrace c s k finc pinc n P Y)
    (h' : BlockTrace c s k finc' pinc' n P' Y') (hfinc : ∀ i, i < n → finc' i = finc i)
    (hpinc : ∀ i, i < n → pinc' i = pinc i) {i : Nat} (hi : i ≤ n) : P' i = P i ∧ Y' i = Y i := by
  obtain ⟨hP, hY, hstep⟩ := h
  obtain ⟨hP', hY', hstep'⟩ := h'
  induction i with
  | zero => exact ⟨hP'.trans hP.symm, hY'.trans hY.symm⟩
  | succ i ih =>
    obtain ⟨ihP, ihY⟩ := ih (Nat.le_of_succ_le hi)
    obtain ⟨inc, off, hinc, hphase, hoff, hl⟩ := hstep i hi
    obtain ⟨inc', off', hinc', hphase', hoff', hl'⟩ := hstep' i hi
    rw [hfinc i hi] at hinc'
    rw [hpinc i hi, ihY] at hoff'
    obtain rfl := truncatesTo_unique hinc hinc'
    obtain rfl := truncatesTo_unique hoff hoff'
    have hP : P' (i + 1) = P (i + 1) := by rw [hphase', hphase, ihP]
    rw [hP, hl] at hl'
    exact ⟨hP, (Option.some.inj hl').symm⟩

/-- A held scalar is the constant array of its number (R100). -/
theorem inputValue_eq_of_held {c : Config} {perBlock : Bool} {x : Nat → NumVal} {prev : NumVal} (K : NumVal) {n : Nat}
    {a : ℝ} (h : perBlock = true → c.num.val prev = a ∧ ∀ i, i < n → c.num.val (x i) = a) {i : Nat} (hi : i < n) :
    inputValue c perBlock x prev K n i = inputValue c false x prev K n i := by
  cases perBlock with
  | false => rfl
  | true =>
    obtain ⟨hprev, hx⟩ := h rfl
    calc
      inputValue c true x prev K n i = c.num.val K * a + i * (c.num.val K * (a - a) / n) := by
        rw [← hprev, inputValue, if_pos rfl, hx 0 (Nat.zero_lt_of_lt hi), hprev]
      _ = c.num.val K * a := by rw [sub_self, mul_zero, zero_div, mul_zero, add_zero]
      _ = inputValue c false x prev K n i := by rw [← hx i hi]; rfl

/-- Held in every element read is held in every element. -/
theorem held_of_read {c : Config} {perBlock : Bool} {m : Memory} {x : Nat → NumVal} {prev : NumVal} {n : Nat} {a : ℝ}
    (hx : ∀ i, i < n → Memory.read m i = some (x i))
    (h : perBlock = true → c.num.val prev = a ∧ ∀ i y, i < n → Memory.read m i = some y → c.num.val y = a) :
    perBlock = true → c.num.val prev = a ∧ ∀ i, i < n → c.num.val (x i) = a := by
  intro hpb
  obtain ⟨hprev, harray⟩ := h hpb
  exact ⟨hprev, fun i hi => harray i (x i) hi (hx i hi)⟩

theorem Memory.exists_elements {m : Memory} {n : Nat} (h : Memory.supplies m n = true) :
    ∃ x : Nat → NumVal, ∀ i, i < n → Memory.read m i = some (x i) := by
  have : Nonempty NumVal := ⟨.rat 0⟩
  choose! x hx using (Memory.supplies_iff m n).1 h
  exact ⟨x, hx⟩

theorem elementsOf_le (perBlock : Bool) {n : Nat} (hn : 1 ≤ n) : elementsOf perBlock n ≤ n := by
  cases perBlock with
  | false => exact le_rfl
  | true => exact hn

end Sys2Proof.Machine

namespace Sys2Proof.Safety

open Sys2Proof.Machine

/-- Settles O37: both blocks are admitted, and their traces solve the same recurrences. -/
theorem heldScalarsEqualConstantArrays : Obligations.HeldScalarsEqualConstantArrays := by
  intro v n s f p hn hu hv htab hfin hpin hbin hout hf hp
  obtain ⟨xf, hxf⟩ := Memory.exists_elements hfin
  obtain ⟨xp, hxp⟩ := Memory.exists_elements hpin
  obtain ⟨k, hk⟩ := (Memory.supplies_iff _ _).1 hbin 0 Nat.one_pos
  have admitted (w : Variant) : AdmittedBlock w n { s with variant := w } xf xp k :=
    ⟨hn, hu, hv, rfl, htab, fun i hi => hxf i (hi.trans_le (elementsOf_le _ (one_le_toNat hn))),
      fun i hi => hxp i (hi.trans_le (elementsOf_le _ (one_le_toNat hn))), hk, hout⟩
  obtain ⟨P, Y, hT, hg⟩ := (admitted .aa).generate_eq Config.hw
  obtain ⟨P', Y', hT', hg'⟩ := (admitted v).generate_eq Config.hw
  have hsame {i : Nat} (hi : i ≤ n.toNat) : P' i = P i ∧ Y' i = Y i :=
    blockTrace_unique (s := s) hT hT' (fun _ => inputValue_eq_of_held s.cpsToInc (held_of_read hxf hf))
      (fun _ => inputValue_eq_of_held s.radToInc (held_of_read hxp hp)) hi
  obtain ⟨hphase, hprevOut⟩ := hsame le_rfl
  exact ⟨_, _, hg, (exec_gen v n _).trans hg', outAfter_congr s.out fun i hi => (hsame hi).2, hphase, hprevOut⟩

end Sys2Proof.Safety
end

section
/-! ## The first block walks the table (R102)

CONSTRUCT leaves PHASE at one increment (`construct_eq_next`); without feedback and on held scalars each sample of the
block adds one more. -/

namespace Sys2Proof.Machine

open Sys2Proof.Safety

/-- One more increment. -/
theorem ofNat_succ_mul (i : Nat) (inc : Word) :
    BitVec.ofNat 32 (i + 1) * inc = BitVec.ofNat 32 i * inc + inc := by
  rw [BitVec.ofNat_add, BitVec.add_mul, BitVec.one_mul]

theorem inc_add_ofNat_mul (i : Nat) (inc : Word) :
    inc + BitVec.ofNat 32 i * inc = BitVec.ofNat 32 (i + 1) * inc := by
  rw [ofNat_succ_mul, BitVec.add_comm]

/-- A block without feedback whose inputs truncate to the same words in every sample. -/
theorem blockTrace_of_constant {c : Config} {s : State} {k : NumVal} {finc pinc : Nat → ℝ} {n : Nat}
    {P : Nat → Word} {Y : Nat → NumVal} {inc off : Word} (h : BlockTrace c s k finc pinc n P Y) (hk : c.num.val k = 0)
    (hinc : ∀ i, i < n → TruncatesTo (finc i) inc) (hoff : ∀ i, i < n → TruncatesTo (pinc i) off) :
    (∀ i, i ≤ n → P i = s.phase + BitVec.ofNat 32 i * inc) ∧
      ∀ i, i < n → lookup c s (P (i + 1) + off) = some (Y (i + 1)) := by
  obtain ⟨hP, -, hstep⟩ := h
  have hsample (i : Nat) (hi : i < n) :
      P (i + 1) = P i + inc ∧ lookup c s (P (i + 1) + off) = some (Y (i + 1)) := by
    obtain ⟨inc', off', hinc', hphase, hoff', hl⟩ := hstep i hi
    rw [feedback_val_of_zero _ hk, mul_zero, add_zero] at hoff'
    obtain rfl := truncatesTo_unique (hinc i hi) hinc'
    obtain rfl := truncatesTo_unique (hoff i hi) hoff'
    exact ⟨hphase, hl⟩
  refine ⟨fun i hi => ?_, fun i hi => (hsample i hi).2⟩
  induction i with
  | zero => rw [hP, BitVec.zero_mul, BitVec.add_zero]
  | succ i ih => rw [(hsample i hi).1, ih (Nat.le_of_succ_le hi), BitVec.add_assoc, ofNat_succ_mul]

/-- A held scalar adds the same word in every sample. -/
theorem truncatesTo_inputValue_held (c : Config) (x K : NumVal) {n i : Nat} (hi : i < n) :
    TruncatesTo (inputValue c true (fun _ => x) x K n i) (scaledWord c K x) := by
  rw [inputValue_eq_of_held K (fun _ => ⟨rfl, fun _ _ => rfl⟩) hi]
  exact truncatesTo_scaledWord c K x

/-- A block on the latched scalars without feedback: each sample one increment after the one before. -/
theorem generate_of_held {c : Config} {n : BitVec 26} {t : State} {k : NumVal}
    (h : AdmittedBlock .kk n t (fun _ => t.prevFreq) (fun _ => t.prevPhase) k) (hk : c.num.val k = 0) :
    ∃ u, generate c .kk n t = .next u ∧
      u.phase = t.phase + BitVec.ofNat 32 n.toNat * scaledWord c t.cpsToInc t.prevFreq ∧
      ∀ i, i < n.toNat → ∃ y, Memory.read u.out i = some y ∧
        lookup c t (t.phase + BitVec.ofNat 32 (i + 1) * scaledWord c t.cpsToInc t.prevFreq
          + scaledWord c t.radToInc t.prevPhase) = some y := by
  obtain ⟨P, Y, hT, hg⟩ := h.generate_eq c
  obtain ⟨hP, hlookup⟩ := blockTrace_of_constant hT hk
    (fun _ => truncatesTo_inputValue_held c t.prevFreq t.cpsToInc)
    (fun _ => truncatesTo_inputValue_held c t.prevPhase t.radToInc)
  refine ⟨_, hg, hP n.toNat le_rfl, fun i hi => ⟨Y (i + 1), ?_, ?_⟩⟩
  · exact (read_outAfter Y t.out n.toNat i).trans (if_pos hi)
  · rw [← hP (i + 1) hi]
    exact hlookup i hi

end Sys2Proof.Machine

namespace Sys2Proof.Safety

open Sys2Proof.Machine

/-- Settles O39: CONSTRUCT in closed form, then the block on the scalars it has latched. -/
theorem firstBlockWalksTheTable : Obligations.FirstBlockWalksTheTable := by
  intro ls n s T f0 p0 k0 hn hu hfits hcfg hT hfin hpin hbin hk htab hout
  obtain ⟨y, hy⟩ := lookup_total Config.hw (s := s.constructed Config.hw .kk ls T f0 p0)
    (scaledWord Config.hw (cpsToIncOf Config.hw ls T) f0 + scaledWord Config.hw (radToIncOf Config.hw ls) p0) rfl htab
  have hcon := construct_eq_next (var := .kk) hu hfits hcfg hT hfin hpin hbin htab hy
  obtain ⟨u, hgen, hphase, hout⟩ := generate_of_held (c := Config.hw)
    (t := (s.constructed Config.hw .kk ls T f0 p0).withSample (scaledWord Config.hw (cpsToIncOf Config.hw ls T) f0) y)
    ⟨hn, hu, rfl, rfl, (tableFits_iff _).2 ⟨rfl, htab⟩, read_scalar hfin, read_scalar hpin, hbin, hout⟩ hk
  refine ⟨_, u, _, _, hcon, hgen, truncatesTo_scaledWord _ _ f0, truncatesTo_scaledWord _ _ p0, ?_, fun i hi => ?_⟩
  · exact hphase.trans (inc_add_ofNat_mul _ _)
  · obtain ⟨x, hx, hlookup⟩ := hout i hi
    rw [← inc_add_ofNat_mul (i + 1)]
    exact ⟨x, hx, hlookup⟩

end Sys2Proof.Safety
end

section
/-! ## A command completes exactly if it is admitted (R107)

One direction is the admission checks a completed command has passed (`generate_next`, `construct_next`,
`releaseInstance_next`); in the other the supplied elements feed the routine, and a whole table answers every lookup. -/

namespace Sys2Proof.Machine

open Sys2Proof.Safety

/-! ### What the admission checks say -/

theorem genSupplied_iff (v : Variant) (n : Nat) (s : State) :
    genSupplied v n s = true ↔
      Memory.supplies s.bin 1 = true ∧ Memory.supplies s.fin (elementsOf v.fk n) = true ∧
        Memory.supplies s.pin (elementsOf v.pk n) = true ∧ Memory.supplies s.out n = true := by
  simp only [genSupplied, Bool.and_eq_true, and_assoc]

theorem constructSupplied_iff (ls : BitVec 5) (s : State) :
    constructSupplied ls s = true ↔
      Memory.supplies s.fin 1 = true ∧ Memory.supplies s.pin 1 = true ∧ Memory.supplies s.bin 1 = true ∧
        Memory.supplies s.tab (tableSize ls) = true := by
  simp only [constructSupplied, Bool.and_eq_true, and_assoc]

theorem genAdmitted_iff (v : Variant) (n : BitVec 26) (s : State) :
    genAdmitted v n s = true ↔
      n ≠ 0#26 ∧ s.tabMutated = false ∧ s.valid = true ∧ s.variant = v ∧ genSupplied v n.toNat s = true := by
  simp only [genAdmitted, Bool.and_eq_true, bne_iff_ne, Bool.not_eq_true', beq_iff_eq, and_assoc, eq_comm (a := v)]

theorem constructAdmitted_iff (c : Config) (ls : BitVec 5) (s : State) :
    constructAdmitted c ls s = true ↔
      s.tabMutated = false ∧ ls.toNat + c.F ≤ 32 ∧ constructSupplied ls s = true ∧
        ∃ T, readCfg s 0 = some T ∧ c.num.pos T = true := by
  cases h : readCfg s 0 <;> simp [constructAdmitted, h, and_assoc]

theorem admitted_gen (c : Config) (v : Variant) (n : BitVec 26) (s : State) :
    admitted c (Instr.gen v n) s = genAdmitted v n s := by
  cases v <;> rfl

/-- The conditions of R107 do not look at the host's acts to come. -/
@[simp] theorem admitted_withHost (c : Config) (i : Instr) (s : State) (acts : List HostAct) :
    admitted c i (s.withHost acts) = admitted c i s := by
  cases i <;> rfl

theorem Memory.exists_read_zero {m : Memory} (h : Memory.supplies m 1 = true) : ∃ x, Memory.read m 0 = some x :=
  (Memory.supplies_iff m 1).1 h 0 Nat.one_pos

/-! ### Admitted commands complete, and no others -/

/-- A GEN command with all it needs completes: its elements make an admitted block. -/
theorem generate_completes {v : Variant} {n : BitVec 26} {s : State} (c : Config) (h : genAdmitted v n s = true)
    (htab : tableFits s = true) : ∃ t, generate c v n s = .next t := by
  obtain ⟨hn, hu, hv, hvar, hsup⟩ := (genAdmitted_iff v n s).1 h
  obtain ⟨hbin, hfin, hpin, hout⟩ := (genSupplied_iff v n.toNat s).1 hsup
  obtain ⟨k, hk⟩ := Memory.exists_read_zero hbin
  obtain ⟨f, hf⟩ := Memory.exists_elements hfin
  obtain ⟨p, hp⟩ := Memory.exists_elements hpin
  have hblock : AdmittedBlock v n s f p k := ⟨hn, hu, hv, hvar, htab, hf, hp, hk, hout⟩
  obtain ⟨P, Y, -, hg⟩ := hblock.generate_eq c
  exact ⟨_, hg⟩

theorem generate_completes_iff (c : Config) (v : Variant) (n : BitVec 26) {s : State}
    (htab : s.valid = true → s.tabMutated = false → tableFits s = true) :
    (∃ t, generate c v n s = .next t) ↔ genAdmitted v n s = true := by
  constructor
  · rintro ⟨t, ht⟩
    obtain ⟨hn, hu, hv, hvar, hsup, -⟩ := generate_next.1 ht
    exact (genAdmitted_iff v n s).2 ⟨hn, hu, hv, hvar, hsup⟩
  · intro h
    obtain ⟨-, hu, hv, -⟩ := (genAdmitted_iff v n s).1 h
    exact generate_completes c h (htab hv hu)

/-- CONSTRUCT brings its own mask and checks the whole table, so its warm-up's lookup answers from every state. -/
theorem construct_completes_iff (c : Config) (v : Variant) (l : BitVec 5) (s : State) :
    (∃ t, construct c v l s = .next t) ↔ constructAdmitted c l s = true := by
  rw [constructAdmitted_iff]
  constructor
  · rintro ⟨t, ht⟩
    obtain ⟨hu, hfits, hsup, T, -, -, hcfg, hT, -⟩ := construct_next.1 ht
    exact ⟨hu, hfits, hsup, T, hcfg, hT⟩
  · rintro ⟨hu, hfits, hsup, T, hcfg, hT⟩
    obtain ⟨hfin, hpin, hbin, htab⟩ := (constructSupplied_iff l s).1 hsup
    obtain ⟨f0, hf0⟩ := Memory.exists_read_zero hfin
    obtain ⟨p0, hp0⟩ := Memory.exists_read_zero hpin
    obtain ⟨k0, hk0⟩ := Memory.exists_read_zero hbin
    obtain ⟨y, hy⟩ := lookup_total c (s := s.constructed c v l T f0 p0)
      (scaledWord c (cpsToIncOf c l T) f0 + scaledWord c (radToIncOf c l) p0) rfl htab
    exact ⟨_, construct_eq_next hu hfits hcfg ((c.num.pos_iff T).1 hT) hf0 hp0 hk0 htab hy⟩

theorem releaseInstance_completes_iff (s : State) :
    (∃ t, releaseInstance s = .next t) ↔ s.tabMutated = false ∧ s.valid = true := by
  simp only [releaseInstance_next, exists_and_left, exists_eq, and_true]

theorem exec_completes_iff_admitted (i : Instr) {s : State}
    (htab : s.valid = true → s.tabMutated = false → tableFits s = true) :
    (∃ t, exec i s = .next t) ↔ admitted Config.hw i s = true := by
  rcases Instr.cases_gen i with ⟨v, l, rfl⟩ | ⟨v, n, rfl⟩ | rfl
  · exact construct_completes_iff Config.hw v l s
  · rw [exec_gen, admitted_gen]
    exact generate_completes_iff Config.hw v n htab
  · rw [exec_release, releaseInstance_completes_iff, admitted, Bool.and_eq_true, Bool.not_eq_true']

/-- The port completes a word exactly if the word's command completes. -/
theorem receive_completes_iff (w : Word) (s : State) :
    (∃ t, receive w s = .next t) ↔ ∃ i, decode w = .ok i ∧ ∃ t, exec i s = .next t := by
  cases h : decode w with
  | ok i => simp only [receive_ok s h, Except.ok.injEq, exists_eq_left']
  | error r => simp only [receive_error s h, reduceCtorEq, exists_false, false_and]

end Sys2Proof.Machine

namespace Sys2Proof.Safety

open Sys2Proof.Machine

/-- Settles O40: the step is the port's, and the port runs the decoded command. -/
theorem onlyAdmittedCommandsComplete : Obligations.OnlyAdmittedCommandsComplete := by
  intro s w rest hhost htab
  have hexec (i : Instr) : (∃ t, exec i (s.withHost rest) = .next t) ↔ admitted Config.hw i s = true := by
    rw [exec_completes_iff_admitted i (s := s.withHost rest) htab, admitted_withHost]
  simp only [step_command hhost, receive_completes_iff, hexec]

end Sys2Proof.Safety
end

section
/-! ## The refusals of a step (R107)

Which refusals each command, the port and the step can raise, and in particular none outside the closed list. -/

namespace Sys2Proof.Machine

/-- The refusals of R107 but NonFinite, which exact numbers cannot meet (log 8). -/
def Refusal.InClosedList (r : Refusal) : Prop :=
  (∃ why, r = .reserved why) ∨ r = .badTableSize ∨ r = .notConstructed ∨ r = .shapeMismatch ∨ r = .shortBuffer ∨
    r = .tableMutated ∨ r = .concurrent ∨ r = .badPeriod

/-- The list leaves out two constructors: the refusal by name that no arm raises, and NonFinite. -/
theorem Refusal.inClosedList_iff (r : Refusal) : r.InClosedList ↔ (∀ m, r ≠ .notModelled m) ∧ r ≠ .nonFinite := by
  cases r <;> simp [Refusal.InClosedList]

/-- Everything a GEN command can be refused as, in the order of its tests (R94). -/
theorem generate_refused {c : Config} {v : Variant} {n : BitVec 26} {s : State} {r : Refusal}
    (h : generate c v n s = .refused r) :
    r = .reserved .emptyBlock ∨ r = .tableMutated ∨ r = .notConstructed ∨ r = .shapeMismatch ∨ r = .shortBuffer := by
  unfold generate at h
  repeat' split at h
  all_goals cases h <;> simp

/-- Everything CONSTRUCT can be refused as, in the order of its tests (R69). -/
theorem construct_refused {c : Config} {v : Variant} {l : BitVec 5} {s : State} {r : Refusal}
    (h : construct c v l s = .refused r) :
    r = .tableMutated ∨ r = .badTableSize ∨ r = .badPeriod ∨ r = .shortBuffer := by
  unfold construct at h
  repeat' split at h
  all_goals cases h <;> simp

/-- Everything RELEASE can be refused as (R74). -/
theorem releaseInstance_refused {s : State} {r : Refusal} (h : releaseInstance s = .refused r) :
    r = .tableMutated ∨ r = .notConstructed := by
  unfold releaseInstance at h
  repeat' split at h
  all_goals cases h <;> simp

theorem exec_refused {i : Instr} {s : State} {r : Refusal} (h : exec i s = .refused r) : r.InClosedList := by
  rw [Refusal.inClosedList_iff]
  rcases Instr.cases_gen i with ⟨v, l, rfl⟩ | ⟨v, n, rfl⟩ | rfl
  · rcases construct_refused h with rfl | rfl | rfl | rfl <;> simp
  · rw [exec_gen] at h
    rcases generate_refused h with rfl | rfl | rfl | rfl | rfl <;> simp
  · rcases releaseInstance_refused h with rfl | rfl <;> simp

theorem receive_refused {w : Word} {s : State} {r : Refusal} (h : receive w s = .refused r) : r.InClosedList := by
  cases hd : decode w with
  | ok i =>
    rw [receive_ok s hd] at h
    exact exec_refused h
  | error why =>
    rw [receive_error s hd, Host.Outcome.refused.injEq] at h
    exact .inl ⟨why, h.symm⟩

theorem perform_refused {a : HostAct} {s : State} {r : Refusal} (h : perform a s = .refused r) : r.InClosedList := by
  cases a with
  | command w => exact receive_refused h
  | commandEarly w =>
    cases h
    simp [Refusal.inClosedList_iff]
  | place sp xs => cases h
  | poke sp k v => cases h

theorem step_of_no_act {s : State} (h : s.host = []) : step s = .next s := by
  simp only [step, h]

theorem step_of_act {s : State} {a : HostAct} {rest : List HostAct} (h : s.host = a :: rest) :
    step s = perform a (s.withHost rest) := by
  simp only [step, h]

theorem step_refused {s : State} {r : Refusal} (h : step s = .refused r) : r.InClosedList := by
  cases hh : s.host with
  | nil =>
    rw [step_of_no_act hh] at h
    cases h
  | cons a rest =>
    rw [step_of_act hh] at h
    exact perform_refused h

end Sys2Proof.Machine

namespace Sys2Proof.Safety

open Sys2Proof.Machine

/-- Settles O15: by the outcome; there is no fault, and a step's refusals are in the list. -/
theorem everyStepCompletesOrIsRefused : Obligations.EveryStepCompletesOrIsRefused := by
  intro s
  cases h : step s with
  | next t => exact .inl ⟨t, rfl⟩
  | fault f => exact nomatch f
  | refused r => exact .inr ⟨r, rfl, step_refused h⟩

/-- Settles O11: the empty list of acts is the step's first case. -/
theorem stepWithNoActHoldsTheState : Obligations.StepWithNoActHoldsTheState :=
  fun _ => step_of_no_act

end Sys2Proof.Safety
end

section
/-! ## When CONSTRUCT refuses (R69)

Its four tests in the order of the pseudocode (log 12): each lemma passes the tests before its own. -/

namespace Sys2Proof.Machine

/-- What CONSTRUCT needs beside CFG[0] fails on a missing element of one of the four buffers. -/
theorem constructSupplied_eq_false_iff (l : BitVec 5) (s : State) :
    constructSupplied l s = false ↔
      Memory.read s.fin 0 = none ∨ Memory.read s.pin 0 = none ∨ Memory.read s.bin 0 = none ∨
        ∃ k, k < 2 ^ l.toNat ∧ Memory.read s.tab k = none := by
  simp only [constructSupplied, tableSize, Bool.and_eq_false_iff, Memory.supplies_eq_false_iff, Nat.lt_one_iff,
    exists_eq_left, or_assoc]

section

variable {c : Config} {l : BitVec 5} {s : State} {T : NumVal} (v : Variant) (hu : s.tabMutated = false)

include hu

theorem construct_of_badTableSize (hsize : 32 < l.toNat + c.F) : construct c v l s = .refused .badTableSize := by
  simp only [construct, hu, hsize, Bool.false_eq_true, if_false, if_true]

variable (hfits : l.toNat + c.F ≤ 32)

include hfits

theorem construct_of_no_period (hcfg : readCfg s 0 = none) : construct c v l s = .refused .shortBuffer := by
  simp only [construct, hu, hfits.not_gt, hcfg, Bool.false_eq_true, if_false]

variable (hcfg : readCfg s 0 = some T)

include hcfg

theorem construct_of_badPeriod (hT : c.num.val T ≤ 0) : construct c v l s = .refused .badPeriod := by
  have hpos : c.num.pos T = false := by rw [← Bool.not_eq_true, c.num.pos_iff, not_lt]; exact hT
  simp only [construct, hu, hfits.not_gt, hcfg, hpos, Bool.not_false, Bool.false_eq_true, if_false, if_true]

theorem construct_of_not_supplied (hT : 0 < c.num.val T) (hsup : constructSupplied l s = false) :
    construct c v l s = .refused .shortBuffer := by
  have hpos : c.num.pos T = true := (c.num.pos_iff T).2 hT
  simp only [construct, hu, hfits.not_gt, hcfg, hpos, hsup, Bool.not_true, Bool.false_eq_true, if_false]

end

end Sys2Proof.Machine

namespace Sys2Proof.Safety

open Sys2Proof.Machine

/-- Settles O26: test by test. -/
theorem constructRefusesMalformedInputs : Obligations.ConstructRefusesMalformedInputs :=
  ⟨fun _ v l s hu =>
    ⟨construct_of_badTableSize v hu, construct_of_no_period v hu, fun hfits _ => construct_of_badPeriod v hu hfits,
      fun hfits _ hcfg hT hmissing =>
        construct_of_not_supplied v hu hfits hcfg hT ((constructSupplied_eq_false_iff l s).2 hmissing)⟩,
    exec_construct⟩

end Sys2Proof.Safety
end

section
/-! ## A host write changes one space (R111) -/

namespace Sys2Proof.Machine

/-- A host write leaves every field alone but the spaces and the record of the table's contract. -/
theorem hostWrites_frame (s : State) (sp : Space) (m : Memory) :
    s.hostWrites sp m = { s with
      tab := (s.hostWrites sp m).tab, fin := (s.hostWrites sp m).fin, pin := (s.hostWrites sp m).pin
      bin := (s.hostWrites sp m).bin, cfg := (s.hostWrites sp m).cfg, out := (s.hostWrites sp m).out
      tabMutated := s.tabMutated || (s.valid && sp == .tab) } := by
  cases sp <;> rfl

theorem hostWrites_space_same (s : State) (sp : Space) (m : Memory) : (s.hostWrites sp m).space sp = m := by
  rw [State.hostWrites_space, State.withSpace_space_same]

theorem hostWrites_space_other (s : State) {sp q : Space} (m : Memory) (h : q ≠ sp) :
    (s.hostWrites sp m).space q = s.space q := by
  rw [State.hostWrites_space, State.withSpace_space_other s m h]

end Sys2Proof.Machine

namespace Sys2Proof.Safety

open Sys2Proof.Machine

/-- Settles O13: both acts are one replacement of the space, by the elements placed or by its contents with one element
written. -/
theorem hostWriteChangesOneSpace : Obligations.HostWriteChangesOneSpace := by
  constructor
  · intro s sp xs rest h
    refine ⟨_, step_place h, fun k => ?_, fun q hq => ?_, hostWrites_frame (s.withHost rest) sp _⟩
    · rw [hostWrites_space_same, Memory.read_ofList]
    · rw [hostWrites_space_other _ _ hq, State.withHost_space]
  · intro s sp k v rest h
    refine ⟨_, step_poke h, ?_, fun j hj => ?_, fun q hq => ?_, hostWrites_frame (s.withHost rest) sp _⟩
    · rw [hostWrites_space_same, Memory.read_write_same]
    · rw [hostWrites_space_same, Memory.read_write_other _ v hj]
    · rw [hostWrites_space_other _ _ hq, State.withHost_space]

end Sys2Proof.Safety
end

section
/-! ## A bound on the feedback term (R130)

The invariant holds the last output in the table's range, whatever that range is. -/

namespace Sys2Proof.Machine

open Sys2Proof.Safety

section

variable {c : Config} {prev k : NumVal} {M : ℝ} (hprev : |c.num.val prev| ≤ M)

include hprev

theorem abs_feedback_le_of_pos (hk : 0 < c.num.val k) : |c.num.val (feedback c prev k)| ≤ |c.num.val k| * M := by
  rw [feedback_val_of_pos prev hk, abs_mul, mul_comm]
  gcongr

theorem abs_feedback_le_of_neg (hk : c.num.val k < 0) : |c.num.val (feedback c prev k)| ≤ |c.num.val k| * M ^ 2 := by
  rw [feedback_val_of_neg prev hk, abs_mul, abs_pow, mul_comm]
  gcongr

end

/-- A table within `M` of 0 bounds the last output of a valid instance. -/
theorem abs_prevOut_le {c : Config} {s : State} {M : ℝ} (hinv : Inv c s) (hvalid : s.valid = true)
    (hmut : s.tabMutated = false) (hwithin : TableWithin c s (-M) M) : |c.num.val s.prevOut| ≤ M :=
  abs_le.2 (hinv.bounded hvalid hmut (-M) M hwithin)

end Sys2Proof.Machine

namespace Sys2Proof.Safety

open Sys2Proof.Machine

/-- Settles O45: the last output is within the table's bound, and the term is linear or quadratic in it. -/
theorem feedbackTermIsBounded : Obligations.FeedbackTermIsBounded := by
  intro s k M hinv hvalid hmut hwithin
  have hprev := abs_prevOut_le hinv hvalid hmut hwithin
  exact ⟨abs_feedback_le_of_pos hprev, abs_feedback_le_of_neg hprev⟩

end Sys2Proof.Safety
end

section
/-! ## A command before the previous one ended (R124) -/

namespace Sys2Proof.Machine

/-- The early word is refused undecoded, in every state (log 7). -/
theorem perform_commandEarly (w : Word) (s : State) : perform (.commandEarly w) s = .refused .concurrent := rfl

end Sys2Proof.Machine

namespace Sys2Proof.Safety

open Sys2Proof.Machine

/-- Settles O12: the pending act is performed, and it is one that is refused. -/
theorem earlyCommandIsRefused : Obligations.EarlyCommandIsRefused := by
  intro s w rest h
  rw [step_of_act h, perform_commandEarly]

end Sys2Proof.Safety
end
